-- ==== Sys2Proof/Word.lean ====
section
/-! DEFINITION. The word types of the block (00_scope.md R8): what the spec treats as bits. -/

namespace Sys2Proof

/-- A byte, an unsigned value 0..255 (R8); a character is the byte of its 7-bit ASCII code (R6). -/
abbrev Byte := BitVec 8

/-- A register, and a command word: 32 bits (R12, R60). -/
abbrev Word := BitVec 32

/-- A sextet, an unsigned value 0..63 (R8). -/
abbrev Sextet := BitVec 6

/-- A nibble, an unsigned value 0..15 (R8). -/
abbrev Nibble := BitVec 4

/-- A byte offset inside the block's window of 0x40000 bytes (20_memory.md R40, 70_reset_and_hazards.md R162). -/
abbrev Offset := BitVec 18

end Sys2Proof
end

