-- ==== Sys2Proof/Config.lean ====
section
/-! DEFINITION. What an implementation fixes and what the spec leaves free: opaque constants without a body,
so that no proof can see a value of one. -/

namespace Sys2Proof.Config

/-- `IN_CAP - 1`. The type says 1 ≤ IN_CAP ≤ 65535 (00_scope.md R7). Log entry 1. -/
opaque inCapLessOne : Fin 65535

/-- The parameter `IN_CAP`, the capacity of the input buffer in bytes (R7). -/
def inCap : Nat := inCapLessOne.val + 1

/-- The parameter `STRICT_TAIL_BITS` (R7, 41_base64.md R96). Log entry 1. -/
opaque strictTailBits : Bool

/-- What byte `i` of `IBUF` holds after the `k`-th reset until it is written (10_state.md R35): free. Log entry 2. -/
opaque ibufFill : (k i : Nat) → Byte

/-- What the storage of `OBUF` holds at index `i` after the `k`-th reset until it is written (R35): free. Log entry 3. -/
opaque obufFill : (k i : Nat) → Byte

/-- The value of the `k`-th unspecified read while `BUSY` = 1, if it is a 32-bit read (R34): free. Log entry 5. -/
opaque busyWord : (k : Nat) → Word

/-- The value of the `k`-th unspecified read while `BUSY` = 1, if it is a byte read (R34): free. Log entry 5. -/
opaque busyByte : (k : Nat) → Byte

end Sys2Proof.Config
end

