-- ==== Sys2Proof/Syntax.lean ====
section
/-! DEFINITION. The eleven commands (30_encoding.md R62). A command has no explicit operand (R60, 20_memory.md R55),
so no constructor has an argument. -/

namespace Sys2Proof

/-- One constructor per row of spec/opcode_table.json. -/
inductive Instr where
  /-- `B2H`, bytesToHex (40_hex.md R80) -/
  | b2h
  /-- `H2B`, hexToBytes (40_hex.md R82) -/
  | h2b
  /-- `B64E`, bytesToBase64 (41_base64.md R90) -/
  | b64e
  /-- `B64D`, base64ToBytes (41_base64.md R94) -/
  | b64d
  /-- `H2B64`, hexToBase64 (41_base64.md R100) -/
  | h2b64
  /-- `B642H`, base64ToHex (41_base64.md R102) -/
  | b642h
  /-- `B2URL`, base64ToBase64Url (42_variants.md R110) -/
  | b2url
  /-- `URL2B`, base64UrlToBase64 (42_variants.md R113) -/
  | url2b
  /-- `B2EXT`, base64ToBase64Ext (42_variants.md R116) -/
  | b2ext
  /-- `EXT2B`, base64ExtToBase64 (42_variants.md R120) -/
  | ext2b
  /-- `XFER`, buffer transfer (43_buffer.md R131) -/
  | xfer
  deriving DecidableEq, Repr

end Sys2Proof
end

