-- ==== Sys2Proof/WellFormed.lean ====
section
/-! DEFINITION. Well-formedness. An `Instr` carries no operand, so every term of it is well formed; what can be ill
formed is the 32-bit word that names a command (30_encoding.md R60, R63). -/

namespace Sys2Proof

/-- No constructor of `Instr` has a field to check (R60: "There are no other fields"). -/
def Instr.wellFormed : Instr → Bool
  | .b2h | .h2b | .b64e | .b64d | .h2b64 | .b642h | .b2url | .url2b | .b2ext | .ext2b | .xfer => true

/-- `RSV`, bits 31:8 of a command word, must be zero (R60). -/
def rsvZero (w : Word) : Bool := w.toNat / 256 == 0

/-- `OPC`, bits 7:0 of a command word, must be one of 0x01..0x0B (R61 line 2, R63). -/
def opcAssigned (w : Word) : Bool := 0x01 ≤ w.toNat % 256 && w.toNat % 256 ≤ 0x0B

/-- A word that names a command (R63). -/
def wordWellFormed (w : Word) : Bool := rsvZero w && opcAssigned w

end Sys2Proof
end

