-- ==== Sys2Proof/Decode.lean ====
section
/-! DEFINITION. The decoder, total on every 32-bit word and rejecting by name (30_encoding.md R60 to R63), and the
encoder. -/

namespace Sys2Proof

/-- Why a word names no command (R61 lines 1 and 2, R63). -/
inductive DecodeError where
  /-- `w[31:8] != 0`: the reserved field is not zero -/
  | reservedNotZero
  /-- `w[7:0] = 0x00` or `w[7:0] >= 0x0C`: no command has this opcode -/
  | unknownOpcode
  deriving DecidableEq, Repr

/-- The decoder's answer. -/
inductive Decoded where
  | command (i : Instr)
  | illegal (e : DecodeError)
  deriving DecidableEq, Repr

/-- Field `OPC`, bits 7:0 (R60). -/
def opcField (w : Word) : BitVec 8 := w.extractLsb' 0 8

/-- Field `RSV`, bits 31:8 (R60). -/
def rsvField (w : Word) : BitVec 24 := w.extractLsb' 8 24

/-- The opcode map of R62. -/
def opcodeMap (opc : BitVec 8) : Decoded :=
  match opc.toNat with
  | 0x01 => .command .b2h
  | 0x02 => .command .h2b
  | 0x03 => .command .b64e
  | 0x04 => .command .b64d
  | 0x05 => .command .h2b64
  | 0x06 => .command .b642h
  | 0x07 => .command .b2url
  | 0x08 => .command .url2b
  | 0x09 => .command .b2ext
  | 0x0A => .command .ext2b
  | 0x0B => .command .xfer
  | _ => .illegal .unknownOpcode

/-- R61 lines 1 and 2: the reserved field first, then the opcode. -/
def decode (w : Word) : Decoded :=
  if rsvField w ≠ 0 then .illegal .reservedNotZero else opcodeMap (opcField w)

/-- The word of a command (R62, column `word`). -/
def encode : Instr → Word
  | .b2h => 0x00000001
  | .h2b => 0x00000002
  | .b64e => 0x00000003
  | .b64d => 0x00000004
  | .h2b64 => 0x00000005
  | .b642h => 0x00000006
  | .b2url => 0x00000007
  | .url2b => 0x00000008
  | .b2ext => 0x00000009
  | .ext2b => 0x0000000A
  | .xfer => 0x0000000B

/-- A table word of `nbits` bits as the 32-bit value written to `CMD`; the bits above `nbits` are zero. A command is
one register value, so no byte order enters (20_memory.md R45). -/
def tableWord (nbits w : Nat) : Word := BitVec.ofNat 32 (w % 2 ^ nbits)

/-- The instruction the decoder reads from a word numbered as spec/opcode_table.json numbers it; a value that does not
fit 32 bits is no command word. -/
def decodeTableWord (nbits w : Nat) : Option Instr :=
  if w % 2 ^ nbits < 2 ^ 32 then
    match decode (tableWord nbits w) with
    | .command i => some i
    | .illegal _ => none
  else none

end Sys2Proof
end

