-- ==== Sys2Proof/Machine/State.lean ====
section
/-! DEFINITION. The state of the block (10_state.md R12), the host's accesses, the reasons a step stops, and reset. -/

namespace Sys2Proof.Machine

/-- The error classes (60_exceptions.md R141, R142, R143). -/
inductive ErrorClass where
  | invalidEncoding
  | invalidArgument
  | illegalCommand
  deriving DecidableEq, Repr

/-- `STATUS` as its four fields (10_state.md R14; R19 lets a model represent it so). -/
structure Status where
  /-- bit 0 (R15) -/
  busy : Bool
  /-- bit 1 (R16) -/
  done : Bool
  /-- bit 2 (R17) -/
  err : Bool
  /-- bits 11:8 (R18) -/
  ecode : BitVec 4
  deriving DecidableEq, Repr

/-- A buffer's written bytes as (index, byte) pairs, indices strictly rising (`Memory.wf`). A byte that is not listed
has not been written since the last reset; the store gives it no value (log entries 2, 3). -/
abbrev Memory := List Host.Cell

/-- The canonical form of a buffer: indices strictly rising. An unlisted byte has no value in the store, so no listed
byte can equal it. -/
abbrev Memory.wf (m : Memory) : Prop := m.Pairwise (fun c d => c.1 < d.1)

/-- The access widths of 20_memory.md R46 and R47: n = 1, 2, 4 bytes. -/
inductive Width where
  | byte
  | half
  | word
  deriving DecidableEq, Repr

/-- A value on the host port, as wide as its access. -/
inductive PortData where
  | byte (b : Byte)
  | half (h : BitVec 16)
  | word (w : Word)
  deriving DecidableEq, Repr

/-- A host access: `MemRead(off, n)` or `MemWrite(off, n, v)` (20_memory.md R41). -/
inductive Access where
  | read (off : Offset) (width : Width)
  | write (off : Offset) (data : PortData)
  deriving DecidableEq, Repr

/-- Whose turn it is (log entry 4): the port presents an access (20_memory.md R50), the engine may take its step
(10_state.md R31), or reset is applied (70_reset_and_hazards.md R160). -/
inductive Turn where
  | host (a : Access)
  | engine
  | reset
  deriving DecidableEq, Repr

/-- The state of R12, and below it the model's own fields. -/
structure State where
  /-- `CMD`, offset 0x00 (R13) -/
  cmd : Word
  /-- `STATUS`, offset 0x04 (R14) -/
  status : Status
  /-- `ILEN`, offset 0x08 (R20) -/
  ilen : Word
  /-- `OLEN`, offset 0x0C (R21) -/
  olen : Word
  /-- `CAP`, offset 0x10 (R22): the parameter `IN_CAP`. Log entry 1. -/
  cap : Word
  /-- `IBUF` (R23), by index -/
  ibuf : Memory
  /-- the storage of `OBUF` (R29), by index -/
  obuf : Memory
  /-- the model's own: the parameter `STRICT_TAIL_BITS` (41_base64.md R96). Log entry 1. -/
  strictTailBits : Bool
  /-- the model's own: the turns still to come, the next one first. Log entry 4. -/
  schedule : List Turn
  /-- the model's own: what the port has returned to the host's reads, newest first. Log entry 7. -/
  port : List PortData
  /-- the model's own: how many unspecified reads have been answered (R34). Log entry 5. -/
  draws : Nat
  /-- the model's own: how many resets have been applied, the first argument of the free buffer contents. Log entry 2. -/
  fills : Nat
  deriving DecidableEq, Repr

/-- The block stops with no fault: a command failure is reported in `STATUS` and the block goes on (60_exceptions.md
R146, R147). No constructor, so nobody raises one. Log entry 6. -/
inductive Fault where
  deriving DecidableEq, Repr

/-- Why the model gives a step no meaning. -/
inductive Refusal where
  /-- Raised by `exec` alone, for a command without a meaning in this model (none is left). Safe: the run stops. -/
  | notModelled (mnemonic : String)
  /-- Raised by a host turn whose access has another width or offset than 20_memory.md R41 lists (R47: "A model refuses
  such a host step"). Safe: the run stops. Log entry 6. -/
  | accessWithoutMeaning
  deriving DecidableEq, Repr

/-- What every step, meaning and operation that can stop answers. -/
abbrev Out := Host.Outcome State Fault Refusal

/-- The state after reset (10_state.md R35, 70_reset_and_hazards.md R160). The model's own fields: nothing scheduled,
nothing read, nothing drawn, the first filling of the buffers (DESIGN CHOICE, log entries 2, 4, 5, 7). -/
def State.reset : State :=
  { cmd := 0, status := { busy := false, done := false, err := false, ecode := 0 }, ilen := 0, olen := 0,
    cap := BitVec.ofNat 32 Config.inCap, ibuf := [], obuf := [],
    strictTailBits := Config.strictTailBits, schedule := [], port := [], draws := 0, fills := 0 }

end Sys2Proof.Machine
end

