-- ==== Sys2Proof/Machine/Flags.lean ====
section
/-! DEFINITION. `STATUS`: its word and the values the commits give it (10_state.md R14 to R19). These four fields are
the block's only flags. -/

namespace Sys2Proof.Machine

/-- The number of an error class in `ECODE` (10_state.md R18). -/
def ErrorClass.code : ErrorClass → BitVec 4
  | .invalidEncoding => 1
  | .invalidArgument => 2
  | .illegalCommand => 3

/-- The 32-bit word a host read of `STATUS` returns: `BUSY` bit 0, `DONE` bit 1, `ERR` bit 2, `ECODE` bits 11:8, every
other bit 0 (R14, R19). -/
def statusWord (st : Status) : Word :=
  (0#20 ++ st.ecode) ++ (0#5 ++ BitVec.ofBool st.err ++ BitVec.ofBool st.done ++ BitVec.ofBool st.busy)

/-- Nothing running and nothing completed: after reset (R35). -/
def Status.idle : Status := { busy := false, done := false, err := false, ecode := 0 }

/-- After the acceptance of a command (R30). -/
def Status.started : Status := { busy := true, done := false, err := false, ecode := 0 }

/-- After a successful completion (R32, 43_buffer.md R131). -/
def Status.succeeded : Status := { busy := false, done := true, err := false, ecode := 0 }

/-- After a completion that failed with class `e` (60_exceptions.md R146). -/
def Status.failed (e : ErrorClass) : Status := { busy := false, done := true, err := true, ecode := e.code }

end Sys2Proof.Machine
end

