-- ==== Sys2Proof/Machine/Ops.lean ====
section
/-! DEFINITION. The shared operations: reading and writing a buffer, accepting a command, the two commits of a
conversion, and reset. -/

namespace Sys2Proof.Machine

/-- The written byte at an index, if it has been written. -/
def Memory.read? : Memory → Nat → Option Byte
  | [], _ => none
  | (a, b) :: m, i => if a = i then some b else Memory.read? m i

/-- One byte stored, keeping the indices rising. -/
def Memory.write : Memory → Nat → Byte → Memory
  | [], i, b => [(i, b)]
  | (a, c) :: m, i, b =>
    if i < a then (i, b) :: (a, c) :: m
    else if i = a then (i, b) :: m
    else (a, c) :: Memory.write m i b

/-- The bytes of a sequence stored at index `i` upward, in order (20_memory.md R43, R55). -/
def Memory.writeAll : Memory → Nat → List Byte → Memory
  | m, _, [] => m
  | m, i, b :: bs => Memory.writeAll (m.write i b) (i + 1) bs

/-- The parameter `IN_CAP`, as the `CAP` register holds it (10_state.md R22). Log entry 1. -/
def State.inCap (s : State) : Nat := s.cap.toNat

/-- `OUT_CAP = 2 * IN_CAP + 2` (00_scope.md R7). -/
def State.outCap (s : State) : Nat := 2 * s.inCap + 2

/-- `IBUF[i]`: the byte written last, or the unspecified content since reset (10_state.md R23, R35). -/
def State.ibufByte (s : State) (i : Nat) : Byte := (s.ibuf.read? i).getD (Config.ibufFill s.fills i)

/-- The storage of `OBUF` at index `i` (R29, R35). -/
def State.obufByte (s : State) (i : Nat) : Byte := (s.obuf.read? i).getD (Config.obufFill s.fills i)

/-- What a host read of `OBUF[i]` returns while `BUSY` = 0: 0x00 at and above `OLEN` (R29). -/
def State.obufView (s : State) (i : Nat) : Byte := if i < s.olen.toNat then s.obufByte i else 0

/-- The turns still to come. -/
def State.withSchedule (turns : List Turn) (s : State) : State := { s with schedule := turns }

/-- A value returned to the host on the port, and the free values drawn for it (10_state.md R34, 20_memory.md R41). -/
def State.answered (d : PortData) (drawn : Nat) (s : State) : State :=
  { s with port := d :: s.port, draws := s.draws + drawn }

/-- `ILEN <- w` (20_memory.md R41). -/
def State.withIlen (w : Word) (s : State) : State := { s with ilen := w }

/-- `IBUF[i] <- b` (20_memory.md R41). -/
def State.withIbufByte (i : Nat) (b : Byte) (s : State) : State := { s with ibuf := s.ibuf.write i b }

/-- Command start (10_state.md R30): all at once, in any state of `DONE` and `ERR`. -/
def acceptCommand (w : Word) (s : State) : State := { s with cmd := w, status := .started }

/-- Success commit (10_state.md R32). The storage of `OBUF` beyond the result is left as it was (log entry 3). -/
def successCommit (out : List Byte) (s : State) : State :=
  { s with olen := BitVec.ofNat 32 out.length, obuf := s.obuf.writeAll 0 out, status := .succeeded }

/-- Failure commit, the block's exception entry (60_exceptions.md R146): nothing else changes, and no control goes
anywhere. There is no return from it (R147): the next accepted command clears the report. -/
def failureCommit (e : ErrorClass) (s : State) : State := { s with olen := 0, status := .failed e }

/-- Reset (70_reset_and_hazards.md R160, R161): whatever the block was doing, without a commit. The parameters stay, the
buffers hold unspecified contents anew, and the environment's fields are not the block's to reset (log entry 10). -/
def applyReset (s : State) : State :=
  { s with cmd := 0, status := .idle, ilen := 0, olen := 0, ibuf := [], obuf := [], fills := s.fills + 1 }

end Sys2Proof.Machine
end

