-- ==== Sys2Proof/Machine/Operands.lean ====
section
/-! DEFINITION. The implicit operands of a command (20_memory.md R55) and the frame every conversion shares
(30_encoding.md R61 lines 4 and 5). -/

namespace Sys2Proof.Machine

/-- `in = IBUF[0 .. ILEN-1]` (00_scope.md R8, 10_state.md R23). -/
def State.input (s : State) : List Byte := (List.range s.ilen.toNat).map s.ibufByte

/-- `OBUF[0 .. OLEN-1]`, the result (10_state.md R29). -/
def State.result (s : State) : List Byte := (List.range s.olen.toNat).map s.obufByte

/-- How the pseudocode of a command ends (00_scope.md R8): with the result `out`, or by `raise`. -/
inductive Conversion where
  | out (bytes : List Byte)
  | raise (e : ErrorClass)
  deriving DecidableEq, Repr

/-- The rest of a pseudocode after the bytes of `c` have been emitted; a `raise` abandons it (R8). -/
def Conversion.append : Conversion → Conversion → Conversion
  | .out a, .out b => .out (a ++ b)
  | .out _, .raise e => .raise e
  | .raise e, _ => .raise e

/-- One pseudocode on the result of another (41_base64.md section 3). -/
def Conversion.andThen : Conversion → (List Byte → Conversion) → Conversion
  | .out a, f => f a
  | .raise e, _ => .raise e

/-- A conversion command, R61 lines 4 and 5: the length check (60_exceptions.md R142), then the pseudocode on the input,
then the commit. -/
def convert (f : List Byte → Conversion) (s : State) : Out :=
  if s.inCap < s.ilen.toNat then .next (failureCommit .invalidArgument s)
  else
    match f s.input with
    | .out bytes => .next (successCommit bytes s)
    | .raise e => .next (failureCommit e s)

end Sys2Proof.Machine
end

