-- ==== Sys2Proof/Machine/Tables.lean ====
section
/-! DEFINITION. The read-only tables (10_state.md R24 to R28; the codes as 42_variants.md R115 lists them). -/

namespace Sys2Proof.Machine

/-- `STD`: `A`..`Z`, `a`..`z`, `0`..`9`, `+`, `/` (R24). -/
def stdTable : List Byte :=
  [0x41, 0x42, 0x43, 0x44, 0x45, 0x46, 0x47, 0x48, 0x49, 0x4A, 0x4B, 0x4C, 0x4D, 0x4E, 0x4F, 0x50] ++
  [0x51, 0x52, 0x53, 0x54, 0x55, 0x56, 0x57, 0x58, 0x59, 0x5A, 0x61, 0x62, 0x63, 0x64, 0x65, 0x66] ++
  [0x67, 0x68, 0x69, 0x6A, 0x6B, 0x6C, 0x6D, 0x6E, 0x6F, 0x70, 0x71, 0x72, 0x73, 0x74, 0x75, 0x76] ++
  [0x77, 0x78, 0x79, 0x7A, 0x30, 0x31, 0x32, 0x33, 0x34, 0x35, 0x36, 0x37, 0x38, 0x39, 0x2B, 0x2F]

/-- `EXT`: `-`, `0`..`9`, `A`..`Z`, `_`, `a`..`z` (R25). -/
def extTable : List Byte :=
  [0x2D, 0x30, 0x31, 0x32, 0x33, 0x34, 0x35, 0x36, 0x37, 0x38, 0x39, 0x41, 0x42, 0x43, 0x44, 0x45] ++
  [0x46, 0x47, 0x48, 0x49, 0x4A, 0x4B, 0x4C, 0x4D, 0x4E, 0x4F, 0x50, 0x51, 0x52, 0x53, 0x54, 0x55] ++
  [0x56, 0x57, 0x58, 0x59, 0x5A, 0x5F, 0x61, 0x62, 0x63, 0x64, 0x65, 0x66, 0x67, 0x68, 0x69, 0x6A] ++
  [0x6B, 0x6C, 0x6D, 0x6E, 0x6F, 0x70, 0x71, 0x72, 0x73, 0x74, 0x75, 0x76, 0x77, 0x78, 0x79, 0x7A]

/-- `HEXD`: `0`..`9`, `a`..`f` (R26). -/
def hexdTable : List Byte :=
  [0x30, 0x31, 0x32, 0x33, 0x34, 0x35, 0x36, 0x37, 0x38, 0x39, 0x61, 0x62, 0x63, 0x64, 0x65, 0x66]

/-- `PAD`, the character `=` (R26). -/
def padChar : Byte := 0x3D

/-- `STD[v]`; a sextet is below 64, so the lookup is always in range. -/
def std (v : Sextet) : Byte := stdTable.getD v.toNat 0

/-- `EXT[v]`, always in range. -/
def ext (v : Sextet) : Byte := extTable.getD v.toNat 0

/-- `HEXD[v]`, always in range. -/
def hexd (v : Nibble) : Byte := hexdTable.getD v.toNat 0

/-- The first position, counted from `v`, at which a table holds the code `c`. -/
def positionFrom (c : Byte) : List Byte → Nat → Option Nat
  | [], _ => none
  | x :: xs, v => if x = c then some v else positionFrom c xs (v + 1)

/-- `STD_INV(c)` (R27). -/
def stdInv (c : Byte) : Option Sextet := (positionFrom c stdTable 0).map (BitVec.ofNat 6)

/-- `EXT_INV(c)` (R27). -/
def extInv (c : Byte) : Option Sextet := (positionFrom c extTable 0).map (BitVec.ofNat 6)

/-- `HEX_INV(c)`: digits and both cases of `a`..`f` (R28). -/
def hexInv (c : Byte) : Option Nibble :=
  if 0x30 ≤ c.toNat ∧ c.toNat ≤ 0x39 then some (BitVec.ofNat 4 (c.toNat - 0x30))
  else if 0x61 ≤ c.toNat ∧ c.toNat ≤ 0x66 then some (BitVec.ofNat 4 (c.toNat - 0x61 + 10))
  else if 0x41 ≤ c.toNat ∧ c.toNat ≤ 0x46 then some (BitVec.ofNat 4 (c.toNat - 0x41 + 10))
  else none

end Sys2Proof.Machine
end

