-- ==== Sys2Proof/Machine/Hex.lean ====
section
/-! DEFINITION. The hex codec: `B2H` and `H2B` (40_hex.md). -/

namespace Sys2Proof.Machine

/-- The pseudocode of `B2H` (R80): two lowercase digits per byte, the high nibble first. -/
def bytesToHex : List Byte → List Byte
  | [] => []
  | b :: bs => hexd (b.extractLsb' 4 4) :: hexd (b.extractLsb' 0 4) :: bytesToHex bs

/-- `hi * 16 + lo` (R82). -/
def joinNibbles (hi lo : Nibble) : Byte := (hi.setWidth 8 <<< 4) ||| lo.setWidth 8

/-- The loop of `H2B` over the digit pairs (R82); a last single digit is an odd length. -/
def hexPairs : List Byte → Conversion
  | [] => .out []
  | [_] => .raise .invalidEncoding
  | c0 :: c1 :: cs =>
    match hexInv c0, hexInv c1 with
    | some hi, some lo => (Conversion.out [joinNibbles hi lo]).append (hexPairs cs)
    | _, _ => .raise .invalidEncoding

/-- The pseudocode of `H2B` (R82). -/
def hexToBytes (s : List Byte) : Conversion :=
  if s.length % 2 ≠ 0 then .raise .invalidEncoding else hexPairs s

/-- `B2H` (R80). -/
def execB2h (s : State) : Out := convert (fun t => .out (bytesToHex t)) s

/-- `H2B` (R82). -/
def execH2b (s : State) : Out := convert hexToBytes s

end Sys2Proof.Machine
end

