-- ==== Sys2Proof/Machine/Base64.lean ====
section
/-! DEFINITION. The Base64 codec and its compositions with the hex codec: `B64E`, `B64D`, `H2B64`, `B642H`
(41_base64.md). -/

namespace Sys2Proof.Machine

/-- The 24-bit group of three bytes, byte 0 in bits 23:16 (20_memory.md R44, R90). -/
def group24 (a b c : Byte) : BitVec 24 := (a.setWidth 24 <<< 16) ||| (b.setWidth 24 <<< 8) ||| c.setWidth 24

/-- The 16-bit group of a trailing 2-byte remainder (R90). -/
def group16 (a b : Byte) : BitVec 16 := (a.setWidth 16 <<< 8) ||| b.setWidth 16

/-- The pseudocode of `B64E` (R90): full windows of 3 bytes, then a remainder of 1 or 2 bytes. -/
def bytesToBase64 : List Byte → List Byte
  | [] => []
  | [a] =>
    let w := a.setWidth 24 <<< 16
    [std (w.extractLsb' 18 6), std (w.extractLsb' 12 6), padChar, padChar]
  | [a, b] =>
    let w := group16 a b
    [std (w.extractLsb' 10 6), std (w.extractLsb' 4 6), std ((w.extractLsb' 0 4).setWidth 6 <<< 2), padChar]
  | a :: b :: c :: rest =>
    let w := group24 a b c
    std (w.extractLsb' 18 6) :: std (w.extractLsb' 12 6) :: std (w.extractLsb' 6 6) :: std (w.extractLsb' 0 6) ::
      bytesToBase64 rest

/-- `(v0 << 2) | v1[5:4]` (R94). -/
def quantumByte0 (v0 v1 : Sextet) : Byte := (v0.setWidth 8 <<< 2) ||| (v1.extractLsb' 4 2).setWidth 8

/-- `(v1[3:0] << 4) | v2[5:2]` (R94). -/
def quantumByte1 (v1 v2 : Sextet) : Byte :=
  ((v1.extractLsb' 0 4).setWidth 8 <<< 4) ||| (v2.extractLsb' 2 4).setWidth 8

/-- `(v2[1:0] << 6) | v3` (R94). -/
def quantumByte2 (v2 v3 : Sextet) : Byte := ((v2.extractLsb' 0 2).setWidth 8 <<< 6) ||| v3.setWidth 8

/-- One turn of the loop of `B64D` (R94 to R96): one quantum of four characters; `last` says that it is the last one. -/
def decodeQuantum (strict last : Bool) (c0 c1 c2 c3 : Byte) : Conversion :=
  match stdInv c0, stdInv c1 with
  | some v0, some v1 =>
    if c2 = padChar then
      if last = false ∨ c3 ≠ padChar then .raise .invalidEncoding
      else if strict = true ∧ v1.extractLsb' 0 4 ≠ 0 then .raise .invalidEncoding
      else .out [quantumByte0 v0 v1]
    else if c3 = padChar then
      if last = false then .raise .invalidEncoding
      else
        match stdInv c2 with
        | none => .raise .invalidEncoding
        | some v2 =>
          if strict = true ∧ v2.extractLsb' 0 2 ≠ 0 then .raise .invalidEncoding
          else .out [quantumByte0 v0 v1, quantumByte1 v1 v2]
    else
      match stdInv c2, stdInv c3 with
      | some v2, some v3 => .out [quantumByte0 v0 v1, quantumByte1 v1 v2, quantumByte2 v2 v3]
      | _, _ => .raise .invalidEncoding
  | _, _ => .raise .invalidEncoding

/-- The loop of `B64D` over the quanta (R94); a last incomplete quantum is a length that is no multiple of 4. -/
def decodeQuanta (strict : Bool) : List Byte → Conversion
  | [] => .out []
  | c0 :: c1 :: c2 :: c3 :: rest =>
    (decodeQuantum strict rest.isEmpty c0 c1 c2 c3).append (decodeQuanta strict rest)
  | [_] | [_, _] | [_, _, _] => .raise .invalidEncoding

/-- The pseudocode of `B64D` (R94), under the parameter `STRICT_TAIL_BITS` (R96). -/
def base64ToBytes (strict : Bool) (s : List Byte) : Conversion :=
  if s.length % 4 ≠ 0 then .raise .invalidEncoding else decodeQuanta strict s

/-- The composition of `H2B64` (R100). -/
def hexToBase64 (s : List Byte) : Conversion := (hexToBytes s).andThen (fun t => .out (bytesToBase64 t))

/-- The composition of `B642H` (R102). -/
def base64ToHex (strict : Bool) (s : List Byte) : Conversion :=
  (base64ToBytes strict s).andThen (fun t => .out (bytesToHex t))

/-- `B64E` (R90). -/
def execB64e (s : State) : Out := convert (fun t => .out (bytesToBase64 t)) s

/-- `B64D` (R94). -/
def execB64d (s : State) : Out := convert (base64ToBytes s.strictTailBits) s

/-- `H2B64` (R100). -/
def execH2b64 (s : State) : Out := convert hexToBase64 s

/-- `B642H` (R102). -/
def execB642h (s : State) : Out := convert (base64ToHex s.strictTailBits) s

end Sys2Proof.Machine
end

