-- ==== Sys2Proof/Machine/Buffer.lean ====
section
/-! DEFINITION. The buffer transfer `XFER` (43_buffer.md). -/

namespace Sys2Proof.Machine

/-- The `XFER` commit (R131): `OLEN`, `OBUF`, `CMD` and the bytes of `IBUF` at and above `OLEN` are unchanged. -/
def xferCommit (s : State) : State :=
  { s with ibuf := s.ibuf.writeAll 0 s.result, ilen := s.olen, status := .succeeded }

/-- `XFER` (R131): `ILEN` is not checked, `OLEN` is. -/
def execXfer (s : State) : Out :=
  if s.inCap < s.olen.toNat then .next (failureCommit .invalidArgument s) else .next (xferCommit s)

end Sys2Proof.Machine
end

