-- ==== Sys2Proof/Machine/Variants.lean ====
section
/-! DEFINITION. The variant transforms: `B2URL`, `URL2B`, `B2EXT`, `EXT2B` (42_variants.md). -/

namespace Sys2Proof.Machine

/-- One turn of the loop of `B2URL` (R110): what the character emits, nothing for `=`. Every other byte value passes
unchanged (R111). -/
def urlChar (c : Byte) : Option Byte :=
  if c = 0x2B then some 0x2D
  else if c = 0x2F then some 0x5F
  else if c = padChar then none
  else some c

/-- The pseudocode of `B2URL` (R110). -/
def base64ToBase64Url (s : List Byte) : List Byte := s.filterMap urlChar

/-- `A`..`Z`, `a`..`z`, `0`..`9`. -/
def alphanumeric (c : Byte) : Bool :=
  (0x41 ≤ c.toNat && c.toNat ≤ 0x5A) || (0x61 ≤ c.toNat && c.toNat ≤ 0x7A) || (0x30 ≤ c.toNat && c.toNat ≤ 0x39)

/-- One turn of the loop of `URL2B` (R113); `none` is its `raise` (R114). -/
def unUrlChar (c : Byte) : Option Byte :=
  if c = 0x2D then some 0x2B
  else if c = 0x5F then some 0x2F
  else if alphanumeric c then some c
  else none

/-- A map of every character of a string that stops at the first one without an image. -/
def mapChars (f : Byte → Option Byte) : List Byte → Option (List Byte)
  | [] => some []
  | c :: cs =>
    match f c, mapChars f cs with
    | some d, some ds => some (d :: ds)
    | _, _ => none

/-- `repad(m)` (R112): the padding for `m` emitted characters. -/
def repad (m : Nat) : Conversion :=
  if m % 4 = 1 then .raise .invalidEncoding
  else if m % 4 = 2 then .out [padChar, padChar]
  else if m % 4 = 3 then .out [padChar]
  else .out []

/-- The characters emitted by a loop, or its `raise InvalidEncoding`. -/
def emitChars : Option (List Byte) → Conversion
  | some t => .out t
  | none => .raise .invalidEncoding

/-- The pseudocode of `URL2B` (R113). -/
def base64UrlToBase64 (s : List Byte) : Conversion := (emitChars (mapChars unUrlChar s)).append (repad s.length)

/-- `=` stripped wherever it stands (R116). -/
def stripPad (s : List Byte) : List Byte := s.filter (fun c => c ≠ padChar)

/-- `STD[v]` to `EXT[v]` (R115, R117). -/
def toExtChar (c : Byte) : Option Byte := (stdInv c).map ext

/-- `EXT[v]` to `STD[v]` (R115, R120). -/
def toStdChar (c : Byte) : Option Byte := (extInv c).map std

/-- The pseudocode of `B2EXT` (R116). -/
def base64ToBase64Ext (s : List Byte) : Conversion := emitChars (mapChars toExtChar (stripPad s))

/-- The pseudocode of `EXT2B` (R120). UNVERIFIED by the source (93 U2): log entry 11. -/
def base64ExtToBase64 (s : List Byte) : Conversion := (emitChars (mapChars toStdChar s)).append (repad s.length)

/-- `B2URL` (R110). -/
def execB2url (s : State) : Out := convert (fun t => .out (base64ToBase64Url t)) s

/-- `URL2B` (R113). -/
def execUrl2b (s : State) : Out := convert base64UrlToBase64 s

/-- `B2EXT` (R116). -/
def execB2ext (s : State) : Out := convert base64ToBase64Ext s

/-- `EXT2B` (R120). -/
def execExt2b (s : State) : Out := convert base64ExtToBase64 s

end Sys2Proof.Machine
end

