-- ==== Sys2Proof/Machine/Dispatch.lean ====
section
/-! DEFINITION. One arm per command (30_encoding.md R61 lines 3 to 5, R62): the engine completes the command `i`. -/

namespace Sys2Proof.Machine

def exec (i : Instr) (s : State) : Host.Outcome State Fault Refusal :=
  match i with
  | .b2h => Sys2Proof.Machine.execB2h s
  | .h2b => Sys2Proof.Machine.execH2b s
  | .b64e => Sys2Proof.Machine.execB64e s
  | .b64d => Sys2Proof.Machine.execB64d s
  | .h2b64 => Sys2Proof.Machine.execH2b64 s
  | .b642h => Sys2Proof.Machine.execB642h s
  | .b2url => Sys2Proof.Machine.execB2url s
  | .url2b => Sys2Proof.Machine.execUrl2b s
  | .b2ext => Sys2Proof.Machine.execB2ext s
  | .ext2b => Sys2Proof.Machine.execExt2b s
  | .xfer => Sys2Proof.Machine.execXfer s

end Sys2Proof.Machine
end

