-- ==== Sys2Proof/Machine/Engine.lean ====
section
/-! DEFINITION. The engine's one step, completing the command in `CMD` (10_state.md R31, 30_encoding.md R61). -/

namespace Sys2Proof.Machine

/-- The procedure `Exec` of R61. Lines 1 and 2 are the decoder's; lines 3 to 5 are `exec`. The operands are read here and
not at the start, which is the same (log entry 8). -/
def completeCommand (s : State) : Out :=
  match decode s.cmd with
  | .command i => exec i s
  | .illegal _ => .next (failureCommit .illegalCommand s)

/-- The engine's turn: it has a step only while `BUSY` = 1 (10_state.md R31). -/
def engineTurn (s : State) : Out := if s.status.busy then completeCommand s else .next s

end Sys2Proof.Machine
end

