-- ==== Sys2Proof/Machine/HostPort.lean ====
section
/-! DEFINITION. The host port: the address map (20_memory.md R42) and what an access does while `BUSY` = 0 (R41) and
while `BUSY` = 1 (10_state.md R33, R34). -/

namespace Sys2Proof.Machine

/-- The registers of the map (R42). -/
inductive Reg where
  | cmd
  | status
  | ilen
  | olen
  | cap
  deriving DecidableEq, Repr

/-- A byte of a buffer, by index (R42). -/
inductive BufferByte where
  | ibuf (i : Nat)
  | obuf (i : Nat)
  deriving DecidableEq, Repr

/-- An access that has a meaning (R41). -/
inductive HostOp where
  | readReg (r : Reg)
  | writeReg (r : Reg) (w : Word)
  | readByte (p : BufferByte)
  | writeByte (p : BufferByte) (b : Byte)
  deriving DecidableEq, Repr

/-- The register at an offset (R42). -/
def regAt (off : Offset) : Option Reg :=
  if off = 0x00 then some .cmd
  else if off = 0x04 then some .status
  else if off = 0x08 then some .ilen
  else if off = 0x0C then some .olen
  else if off = 0x10 then some .cap
  else none

/-- The buffer byte at an offset (R42), for a block of capacity `inCap`. -/
def byteAt (inCap : Nat) (off : Offset) : Option BufferByte :=
  if 0x10000 ≤ off.toNat ∧ off.toNat < 0x10000 + inCap then some (.ibuf (off.toNat - 0x10000))
  else if 0x20000 ≤ off.toNat ∧ off.toNat < 0x20000 + (2 * inCap + 2) then some (.obuf (off.toNat - 0x20000))
  else none

/-- What an access means, if anything (R41, R46, R47): words on registers, bytes on buffers. -/
def resolve (inCap : Nat) : Access → Option HostOp
  | .read off .word => (regAt off).map .readReg
  | .read off .byte => (byteAt inCap off).map .readByte
  | .read _ .half => none
  | .write off (.word w) => (regAt off).map (fun r => .writeReg r w)
  | .write off (.byte b) => (byteAt inCap off).map (fun p => .writeByte p b)
  | .write _ (.half _) => none

/-- The value of a register read (R41); `OLEN` is unspecified while `BUSY` = 1 (10_state.md R34). -/
def regValue (r : Reg) (s : State) : Word :=
  match r with
  | .cmd => s.cmd
  | .status => statusWord s.status
  | .ilen => s.ilen
  | .olen => if s.status.busy then Config.busyWord s.draws else s.olen
  | .cap => s.cap

/-- The value of a buffer read (R41, R29); unspecified while `BUSY` = 1 (R34). -/
def byteValue (p : BufferByte) (s : State) : Byte :=
  if s.status.busy then Config.busyByte s.draws
  else
    match p with
    | .ibuf i => s.ibufByte i
    | .obuf i => s.obufView i

/-- How many free values a register read draws (R34). -/
def regDraws (r : Reg) (s : State) : Nat :=
  match r with
  | .olen => if s.status.busy then 1 else 0
  | .cmd | .status | .ilen | .cap => 0

/-- How many free values a buffer read draws (R34). -/
def byteDraws (s : State) : Nat := if s.status.busy then 1 else 0

/-- A register write. Only `CMD` and `ILEN` take one (R41), and only while `BUSY` = 0 (R33). -/
def writeRegister (r : Reg) (w : Word) (s : State) : State :=
  match r with
  | .cmd => if s.status.busy then s else acceptCommand w s
  | .ilen => if s.status.busy then s else s.withIlen w
  | .status | .olen | .cap => s

/-- A buffer write. Only `IBUF` takes one (R41), and only while `BUSY` = 0 (R33). -/
def writeBufferByte (p : BufferByte) (b : Byte) (s : State) : State :=
  match p with
  | .ibuf i => if s.status.busy then s else s.withIbufByte i b
  | .obuf _ => s

/-- One host step that has a meaning: a read returns a value on the port and changes nothing else of the block (R48). -/
def hostOp (op : HostOp) (s : State) : State :=
  match op with
  | .readReg r => s.answered (.word (regValue r s)) (regDraws r s)
  | .readByte p => s.answered (.byte (byteValue p s)) (byteDraws s)
  | .writeReg r w => writeRegister r w s
  | .writeByte p b => writeBufferByte p b s

/-- One host access; without a meaning it is refused (R47). -/
def hostAccess (a : Access) (s : State) : Out :=
  match resolve s.inCap a with
  | some op => .next (hostOp op s)
  | none => .refused .accessWithoutMeaning

end Sys2Proof.Machine
end

