-- ==== Sys2Proof/Machine/Step.lean ====
section
/-! DEFINITION. One step: the next turn of the schedule. -/

namespace Sys2Proof.Machine

/-- The next turn is taken. When nothing is scheduled the engine has the turn: a command in flight completes on its own,
and an idle block stays as it is (70_reset_and_hazards.md R173). Log entry 4. -/
def step (s : State) : Host.Outcome State Fault Refusal :=
  match s.schedule with
  | [] => engineTurn s
  | .engine :: rest => engineTurn (s.withSchedule rest)
  | .host a :: rest => hostAccess a (s.withSchedule rest)
  | .reset :: rest => .next (applyReset (s.withSchedule rest))

/-- `s` with the word `w` accepted as a command and the engine at turn, so that the next step completes exactly that
command. The block fetches nothing (10_state.md R11): `CMD` is where a command comes from. Log entry 9. -/
def State.withFetchWord (s : State) (nbits w : Nat) : State :=
  (acceptCommand (tableWord nbits w) s).withSchedule (.engine :: s.schedule)

end Sys2Proof.Machine
end

