-- ==== Sys2Proof/Machine/Formats.lean ====
section
/-! DEFINITION. The data formats of 30_encoding.md section 3, as checks on a byte sequence by position. No meaning uses
them; statements do. Every byte sequence is a legal binary input (R64), and a string has no terminator (R69). -/

namespace Sys2Proof.Machine

/-- A hex string (R65): even length, every character one of the 22 digits. -/
def isHexString (s : List Byte) : Bool := s.length % 2 == 0 && s.all (fun c => (hexInv c).isSome)

/-- `=` stands only at index `n-1`, or at `n-2` and `n-1` together (41_base64.md R95 (c)). -/
def padOnlyAtEnd (s : List Byte) : Bool :=
  (List.range s.length).all fun i =>
    s.getD i 0 != padChar || i + 1 == s.length || (i + 2 == s.length && s.getD (i + 1) 0 == padChar)

/-- A padded Base64 string, canonical or not (R66, 41_base64.md R95 (a) to (c)). -/
def isBase64 (s : List Byte) : Bool :=
  s.length % 4 == 0 && s.all (fun c => (stdInv c).isSome || c == padChar) && padOnlyAtEnd s

/-- The sextet of a character, an absent one taken as 0 (41_base64.md R97). -/
def sextetOf (c : Byte) : Sextet := (stdInv c).getD 0

/-- The bits discarded from the last quantum are zero (41_base64.md R96): in `xx==` the low 4 bits of the second sextet,
in `xxx=` the low 2 bits of the third. -/
def discardedBitsZero (s : List Byte) : Bool :=
  let n := s.length
  if s.getD (n - 1) 0 != padChar then true
  else if s.getD (n - 2) 0 == padChar then (sextetOf (s.getD (n - 3) 0)).toNat % 16 == 0
  else (sextetOf (s.getD (n - 2) 0)).toNat % 4 == 0

/-- A canonical Base64 string (R66). -/
def isCanonicalBase64 (s : List Byte) : Bool := isBase64 s && discardedBitsZero s

/-- What `B64D` accepts under the parameter `STRICT_TAIL_BITS` (41_base64.md R95, R96). -/
def acceptedBase64 (strict : Bool) (s : List Byte) : Bool := isBase64 s && (!strict || discardedBitsZero s)

/-- One of the 64 characters of the URL alphabet (R67). -/
def isUrlChar (c : Byte) : Bool :=
  (0x41 ≤ c.toNat && c.toNat ≤ 0x5A) || (0x61 ≤ c.toNat && c.toNat ≤ 0x7A) || (0x30 ≤ c.toNat && c.toNat ≤ 0x39) ||
    c == 0x2D || c == 0x5F

/-- A Base64-URL string (R67): the remainder of the length by 4 is 0, 2 or 3. -/
def isBase64Url (s : List Byte) : Bool := s.all isUrlChar && s.length % 4 != 1

/-- A Base64-Ext string (R68). -/
def isBase64Ext (s : List Byte) : Bool := s.all (fun c => (extInv c).isSome) && s.length % 4 != 1

/-- A string `B2EXT` accepts (42_variants.md R116, R117): every character is `=` or in `STD`. -/
def isStdOrPad (s : List Byte) : Bool := s.all (fun c => c == padChar || (stdInv c).isSome)

end Sys2Proof.Machine
end

