-- ==== Sys2Proof/Machine/Script.lean ====
section
/-! DEFINITION. The host-script notation (30_encoding.md R70, R71) as the accesses and turns it stands for, and the
host-side identifier derivation (00_scope.md R9). The block executes none of this. -/

namespace Sys2Proof.Machine

/-- The offset of a register (20_memory.md R42). -/
def regOffset : Reg → Offset
  | .cmd => 0x00
  | .status => 0x04
  | .ilen => 0x08
  | .olen => 0x0C
  | .cap => 0x10

/-- `WR CMD, v` and `WR ILEN, v` (R70). -/
def wrReg (r : Reg) (v : Word) : Access := .write (regOffset r) (.word v)

/-- `RD STATUS` and its like (R70). -/
def rdReg (r : Reg) : Access := .read (regOffset r) .word

/-- `WRB i, b` (R70). -/
def wrb (i : Nat) (b : Byte) : Access := .write (BitVec.ofNat 18 (0x10000 + i)) (.byte b)

/-- `RDB j` (R70). -/
def rdb (j : Nat) : Access := .read (BitVec.ofNat 18 (0x20000 + j)) .byte

/-- `RDI i` (R70). -/
def rdi (i : Nat) : Access := .read (BitVec.ofNat 18 (0x10000 + i)) .byte

/-- `WRB k, b0`; `WRB k+1, b1`; … -/
def wrbFrom : Nat → List Byte → List Access
  | _, [] => []
  | k, b :: bs => wrb k b :: wrbFrom (k + 1) bs

/-- `LOADB b0 b1 …` (R71). -/
def loadb (bs : List Byte) : List Access := wrbFrom 0 bs ++ [wrReg .ilen (BitVec.ofNat 32 bs.length)]

/-- The code of an ASCII character (00_scope.md R6). -/
def charCode (c : Char) : Byte := BitVec.ofNat 8 c.toNat

/-- `LOADS "text"` (R71). -/
def loads (text : List Char) : List Access := loadb (text.map charCode)

/-- `RUN M` (R71) in a run in which `polls` reads of `STATUS` see `BUSY` = 1: the `CMD` write, the polls, the completion,
and the read that ends the loop. -/
def runTurns (w : Word) (polls : Nat) : List Turn :=
  .host (wrReg .cmd w) :: (List.replicate polls (.host (rdReg .status)) ++ [.engine, .host (rdReg .status)])

/-- `READ` of `k` bytes (R71). -/
def readResult (k : Nat) : List Access := rdReg .olen :: (List.range k).map rdb

/-- The host's own copy of a result into the input buffer, `XFER` by hand (43_buffer.md R130): `RD OLEN`; for each `i`
below `m`: `RDB i`, `WRB i, b_i`; `WR ILEN, m`. -/
def handCopy (m : Nat) (b : Nat → Byte) : List Access :=
  rdReg .olen :: ((List.range m).flatMap (fun i => [rdb i, wrb i (b i)]) ++ [wrReg .ilen (BitVec.ofNat 32 m)])

/-- `EXPECT_OK` (R71). -/
def expectOk (bytes : List Byte) (s : State) : Bool :=
  statusWord s.status == 0x00000002 && (List.range s.olen.toNat).map s.obufView == bytes

/-- `EXPECT_ERR E` (R71). -/
def expectErr (e : ErrorClass) (s : State) : Bool :=
  statusWord s.status == 0x00000006 + (e.code.setWidth 32 <<< 8) && s.olen == 0

/-- The 18 lowercase hex digits of `t * 2^30` for a timestamp of 42 bits; otherwise the host itself reports
`InvalidArgument` (R9). -/
def hexGeneratedId (t : Nat) : Option (List Byte) :=
  if t < 2 ^ 42 then some ((List.range 18).map fun k => hexd (BitVec.ofNat 4 (t * 2 ^ 30 / 16 ^ (17 - k)))) else none

end Sys2Proof.Machine
end

