-- ==== Sys2Proof/Safety.lean ====
section
/-! DEFINITION. The terms the statements use: the parameter's range, the invariant of 10_state.md R36, the frames, and a
schedule whose accesses all have a meaning. -/

namespace Sys2Proof.Machine

/-- 1 ≤ IN_CAP ≤ 65535 (00_scope.md R7). -/
abbrev State.capInRange (s : State) : Prop := 1 ≤ s.inCap ∧ s.inCap ≤ 65535

/-- The invariant: R36 (a) to (d), the parameter's range, and that the buffers hold canonical stores of bytes that exist
and the whole result is bytes that have been written. -/
structure Inv (s : State) : Prop where
  /-- R7, R22 -/
  capRange : s.capInRange
  /-- R36 (a) -/
  busyNotDone : ¬(s.status.busy = true ∧ s.status.done = true)
  /-- R36 (b) -/
  errReported : s.status.err = true →
    s.status.done = true ∧ (s.status.ecode = 1 ∨ s.status.ecode = 2 ∨ s.status.ecode = 3) ∧ s.olen = 0
  /-- R36 (c) -/
  noErrNoCode : s.status.err = false → s.status.ecode = 0
  /-- R36 (d), R21 -/
  olenFits : s.olen.toNat ≤ s.outCap
  /-- `IBUF` in canonical form -/
  ibufWf : Memory.wf s.ibuf
  /-- `OBUF` in canonical form -/
  obufWf : Memory.wf s.obuf
  /-- only bytes `IBUF[0 .. IN_CAP-1]` exist (R23) -/
  ibufInside : ∀ c ∈ s.ibuf, c.1 < s.inCap
  /-- only bytes `OBUF[0 .. OUT_CAP-1]` exist (R29) -/
  obufInside : ∀ c ∈ s.obuf, c.1 < s.outCap
  /-- `OBUF[0 .. OLEN-1]` has been written, so no result is unspecified content -/
  resultWritten : ∀ i < s.olen.toNat, (s.obuf.read? i).isSome = true

/-- The parameters and the model's own fields are as they were. -/
structure SameEnvironment (s t : State) : Prop where
  cap : t.cap = s.cap
  strictTailBits : t.strictTailBits = s.strictTailBits
  schedule : t.schedule = s.schedule
  port : t.port = s.port
  draws : t.draws = s.draws
  fills : t.fills = s.fills

/-- The frame of a conversion that succeeds: only `STATUS`, `OLEN` and the bytes `OBUF[0 .. OLEN-1]` are written
(10_state.md R32). That the storage above stays is the model's choice (log entry 3). -/
structure ConversionFrame (s t : State) : Prop where
  cmd : t.cmd = s.cmd
  ilen : t.ilen = s.ilen
  ibuf : ∀ i, t.ibufByte i = s.ibufByte i
  obuf : ∀ i, t.olen.toNat ≤ i → t.obufByte i = s.obufByte i
  environment : SameEnvironment s t

/-- Nothing the host can see of the block has changed; a read leaves it so (20_memory.md R48). -/
structure SameBlock (s t : State) : Prop where
  cmd : t.cmd = s.cmd
  status : t.status = s.status
  ilen : t.ilen = s.ilen
  olen : t.olen = s.olen
  cap : t.cap = s.cap
  strictTailBits : t.strictTailBits = s.strictTailBits
  ibuf : ∀ i, t.ibufByte i = s.ibufByte i
  obuf : ∀ i, t.obufByte i = s.obufByte i

/-- Every access still scheduled has a meaning (20_memory.md R41, R47). -/
def State.scheduleLegal (s : State) : Prop := ∀ a, Turn.host a ∈ s.schedule → resolve s.inCap a ≠ none

/-- Command `i` started on `s` and completed: the two steps of 10_state.md R30 and R31. -/
def runCommand (i : Instr) (s : State) : Out := exec i (acceptCommand (encode i) s)

/-- One run of the block's step over `n` turns. -/
def runTurnsOf (n : Nat) (s : State) : Out := Host.Core.run Sys2Proof.core n s

/-- What the engine runs for a conversion (30_encoding.md R62); `XFER` has no pseudocode on an input. -/
def pseudocode (strict : Bool) : Instr → Option (List Byte → Conversion)
  | .b2h => some (fun t => .out (bytesToHex t))
  | .h2b => some hexToBytes
  | .b64e => some (fun t => .out (bytesToBase64 t))
  | .b64d => some (base64ToBytes strict)
  | .h2b64 => some hexToBase64
  | .b642h => some (base64ToHex strict)
  | .b2url => some (fun t => .out (base64ToBase64Url t))
  | .url2b => some base64UrlToBase64
  | .b2ext => some base64ToBase64Ext
  | .ext2b => some base64ExtToBase64
  | .xfer => none

/-- The inputs on which a command raises `InvalidEncoding`, as 60_exceptions.md R141 lists them; `XFER` and the three
conversions it does not list never do (R149). -/
def invalidInput (strict : Bool) (i : Instr) (s : List Byte) : Bool :=
  match i with
  | .h2b | .h2b64 => !isHexString s
  | .b64d | .b642h => !acceptedBase64 strict s
  | .url2b => !isBase64Url s
  | .b2ext => !isStdOrPad s
  | .ext2b => !isBase64Ext s
  | .b2h | .b64e | .b2url | .xfer => false

/-- The longest result of each conversion of `n` bytes (10_state.md R21); `XFER` makes no result. -/
def longestResult (i : Instr) (n : Nat) : Nat :=
  match i with
  | .b2h => 2 * n
  | .h2b => n / 2
  | .b64e => 4 * ((n + 2) / 3)
  | .b64d => 3 * n / 4
  | .h2b64 => 4 * ((n + 5) / 6)
  | .b642h => 3 * n / 2
  | .b2url => n
  | .url2b => n + 2
  | .b2ext => n
  | .ext2b => n + 2
  | .xfer => 0

/-- Byte `k` of the input, or a zero byte beyond its end (41_base64.md R91). -/
def windowByte (s : State) (k : Nat) : Nat := if k < s.ilen.toNat then (s.ibufByte k).toNat else 0

/-- The 24-bit value of window `j` of the encoder (41_base64.md R91). -/
def windowValue (s : State) (j : Nat) : Nat :=
  windowByte s (3 * j) * 2 ^ 16 + windowByte s (3 * j + 1) * 2 ^ 8 + windowByte s (3 * j + 2)

/-- The 24-bit value of quantum `j` of the decoder, absent sextets taken as 0 (41_base64.md R97). -/
def quantumValue (s : State) (j : Nat) : Nat :=
  (sextetOf (s.ibufByte (4 * j))).toNat * 2 ^ 18 + (sextetOf (s.ibufByte (4 * j + 1))).toNat * 2 ^ 12 +
    (sextetOf (s.ibufByte (4 * j + 2))).toNat * 2 ^ 6 + (sextetOf (s.ibufByte (4 * j + 3))).toNat

/-- A hex digit with `A`..`F` replaced by `a`..`f` (40_hex.md R83). -/
def lowerDigit (c : Byte) : Byte := if 0x41 ≤ c.toNat ∧ c.toNat ≤ 0x46 then c + 0x20 else c

/-- Lexicographic order: byte by byte from index 0, a proper prefix the smaller (42_variants.md R119). -/
def lexLess (a b : List Byte) : Prop := List.Lex (fun x y => x.toNat < y.toNat) a b

/-- The big-endian unsigned value of a byte sequence (42_variants.md R119). -/
def bigEndianValue (bs : List Byte) : Nat := bs.foldl (fun n b => n * 256 + b.toNat) 0

/-- An access of one of the forms 20_memory.md R41 lists: words at the five register offsets, bytes inside the two
buffers (R46). -/
def listedAccess (inCap : Nat) : Access → Prop
  | .read off .word => off ∈ ([0x00, 0x04, 0x08, 0x0C, 0x10] : List Offset)
  | .write off (.word _) => off ∈ ([0x00, 0x04, 0x08, 0x0C, 0x10] : List Offset)
  | .read off .byte => (0x10000 ≤ off.toNat ∧ off.toNat < 0x10000 + inCap) ∨
      (0x20000 ≤ off.toNat ∧ off.toNat < 0x20000 + (2 * inCap + 2))
  | .write off (.byte _) => (0x10000 ≤ off.toNat ∧ off.toNat < 0x10000 + inCap) ∨
      (0x20000 ≤ off.toNat ∧ off.toNat < 0x20000 + (2 * inCap + 2))
  | .read _ .half => False
  | .write _ (.half _) => False

/-- A fused command gives the same `STATUS`, `OLEN` and `OBUF` as its two halves joined by `XFER`; when the first half
fails the sequence stops there with the same error (41_base64.md R103). -/
def fusedEqualsChain (fused first second : Instr) (s : State) : Prop :=
  ∃ t u, runCommand fused s = .next t ∧ runCommand first s = .next u ∧
    (u.status.err = true → t.status = u.status ∧ t.olen = u.olen ∧ ∀ k, t.obufView k = u.obufView k) ∧
    (u.status.err = false → ∃ v w, runCommand .xfer u = .next v ∧ runCommand second v = .next w ∧
      t.status = w.status ∧ t.olen = w.olen ∧ ∀ k, t.obufView k = w.obufView k)

end Sys2Proof.Machine
end

