-- ==== Sys2Proof/Certificates/Slice0/Obligations.lean ====
section
/-! DEFINITION. The statements for the provers. Each docstring names the rule of the spec it formalises, or the model's
choice it rests on. -/

open Sys2Proof Sys2Proof.Machine

/-! ### Encoding -/

/-- The eleven words of 30_encoding.md R62, written out. -/
def Obligations.ElevenWordsDecode : Prop :=
  decode 0x00000001 = .command .b2h ∧ decode 0x00000002 = .command .h2b ∧ decode 0x00000003 = .command .b64e ∧
  decode 0x00000004 = .command .b64d ∧ decode 0x00000005 = .command .h2b64 ∧ decode 0x00000006 = .command .b642h ∧
  decode 0x00000007 = .command .b2url ∧ decode 0x00000008 = .command .url2b ∧ decode 0x00000009 = .command .b2ext ∧
  decode 0x0000000A = .command .ext2b ∧ decode 0x0000000B = .command .xfer

/-- Decoding and encoding agree in both directions, over every 32-bit word: a word decodes to a command exactly when it
is that command's word, and the words that name a command are exactly the eleven (30_encoding.md R60 to R63). -/
def Obligations.DecodeAnswersExactlyTheEncodedWord : Prop :=
  (∀ i : Instr, i.wellFormed = true → decode (encode i) = .command i) ∧
  (∀ (i : Instr) (w : Word), decode w = .command i ↔ w = encode i) ∧
  (∀ w : Word, wordWellFormed w = true ↔ ∃ i, w = encode i) ∧
  (∀ w : Word, rsvField w ≠ 0 → decode w = .illegal .reservedNotZero) ∧
  (∀ w : Word, rsvField w = 0 → (opcField w = 0 ∨ 0x0C ≤ (opcField w).toNat) → decode w = .illegal .unknownOpcode)

/-- 30_encoding.md R63: any other word is accepted, and completes by the failure commit with `IllegalCommand`, touching
neither `IBUF` nor `ILEN`. -/
def Obligations.IllegalWordCompletesWithIllegalCommand : Prop :=
  ∀ (s : State) (w : Word) (rest : List Turn), s.status.busy = false → (∀ i, w ≠ encode i) →
    s.schedule = .host (.write 0x00000 (.word w)) :: .engine :: rest →
    ∃ t, runTurnsOf 2 s = .next t ∧ t.cmd = w ∧ t.status = .failed .illegalCommand ∧
      statusWord t.status = 0x00000306 ∧ t.olen = 0 ∧ t.ilen = s.ilen ∧ (∀ i, t.ibufByte i = s.ibufByte i) ∧
      (∀ i, t.obufView i = 0) ∧ t.schedule = rest

/-! ### The steps of the two agents -/

/-- The engine's turn runs the command that `CMD` decodes to, on the state with that turn taken (10_state.md R31,
30_encoding.md R61); an undecodable word takes the failure commit; and `withFetchWord` makes the next step run a word. That the engine has
the turn when nothing is scheduled is the model's choice (log entry 4), and so is `withFetchWord` (log entry 9). -/
def Obligations.StepRunsTheDecodedCommand : Prop :=
  (∀ (s : State) (i : Instr), s.status.busy = true → decode s.cmd = .command i →
    (s.schedule = [] → step s = exec i s) ∧
    (∀ rest, s.schedule = .engine :: rest → step s = exec i (s.withSchedule rest))) ∧
  (∀ (s : State) (e : DecodeError), s.status.busy = true → decode s.cmd = .illegal e →
    (s.schedule = [] → step s = .next (failureCommit .illegalCommand s)) ∧
    (∀ rest, s.schedule = .engine :: rest →
      step s = .next (failureCommit .illegalCommand (s.withSchedule rest)))) ∧
  (∀ (s : State) (i : Instr), step (s.withFetchWord 32 (encode i).toNat) = exec i (acceptCommand (encode i) s))

/-- 10_state.md R30: a `CMD` write while `BUSY` = 0, in any state of `DONE` and `ERR`, starts a command, changing `CMD`
and `STATUS` alone; and no host access can change the command's inputs before it completes. -/
def Obligations.CommandStart : Prop :=
  (∀ (s : State) (w : Word) (rest : List Turn), s.status.busy = false →
    s.schedule = .host (.write 0x00000 (.word w)) :: rest →
    step s = .next { s with
      cmd := w, status := { busy := true, done := false, err := false, ecode := 0 }, schedule := rest }) ∧
  (∀ (s t : State) (a : Access) (rest : List Turn), s.status.busy = true → s.schedule = .host a :: rest →
    step s = .next t → t.cmd = s.cmd ∧ t.ilen = s.ilen ∧ t.olen = s.olen ∧ t.status = s.status ∧
      (∀ i, t.ibufByte i = s.ibufByte i) ∧ (∀ i, t.obufByte i = s.obufByte i))

/-- 10_state.md R33: while `BUSY` = 1 a write changes nothing; and a write to `STATUS`, `OLEN`, `CAP` or `OBUF` changes
nothing in any state. -/
def Obligations.WritesIgnored : Prop :=
  (∀ (s : State) (off : Offset) (d : PortData) (rest : List Turn), s.status.busy = true →
    listedAccess s.inCap (.write off d) → s.schedule = .host (.write off d) :: rest →
    step s = .next (s.withSchedule rest)) ∧
  (∀ (s : State) (off : Offset) (w : Word) (rest : List Turn), (off = 0x04 ∨ off = 0x0C ∨ off = 0x10) →
    s.schedule = .host (.write off (.word w)) :: rest → step s = .next (s.withSchedule rest)) ∧
  (∀ (s : State) (j : Nat) (b : Byte) (rest : List Turn), s.capInRange → j < s.outCap →
    s.schedule = .host (.write (BitVec.ofNat 18 (0x20000 + j)) (.byte b)) :: rest →
    step s = .next (s.withSchedule rest))

/-- Reads while `BUSY` = 1 (10_state.md R34): `STATUS`, `CMD`, `ILEN` and `CAP` read their values; a read of `OLEN`,
`IBUF` or `OBUF` returns the next free value (the form of a free draw is the model's: log entry 5). -/
def Obligations.ReadsWhileBusy : Prop :=
  ∀ (s : State) (rest : List Turn), Inv s → s.status.busy = true →
    (∀ off v, (off, v) ∈ [((0x00 : Offset), s.cmd), (0x04, (0x00000001 : Word)), (0x08, s.ilen), (0x10, s.cap)] →
      s.schedule = .host (.read off .word) :: rest →
      step s = .next { s with schedule := rest, port := .word v :: s.port }) ∧
    (s.schedule = .host (.read 0x0C .word) :: rest →
      step s = .next { s with schedule := rest, port := .word (Config.busyWord s.draws) :: s.port,
                              draws := s.draws + 1 }) ∧
    (∀ off, (∃ i, (i < s.inCap ∧ off = BitVec.ofNat 18 (0x10000 + i)) ∨ (i < s.outCap ∧ off = BitVec.ofNat 18 (0x20000 + i))) →
      s.schedule = .host (.read off .byte) :: rest →
      step s = .next { s with schedule := rest, port := .byte (Config.busyByte s.draws) :: s.port,
                              draws := s.draws + 1 })

/-- The host's primitives while `BUSY` = 0: every listed line of 20_memory.md R41 (the last line is R47's, see
`OtherAccessesAreRefused`), with 0x00 for every byte of `OBUF` at and above `OLEN` (10_state.md R29). -/
def Obligations.HostPrimitivesWhileIdle : Prop :=
  ∀ (s : State) (rest : List Turn), s.capInRange → s.status.busy = false →
    (∀ off v, (off, v) ∈ [((0x00 : Offset), s.cmd), (0x04, statusWord s.status), (0x08, s.ilen), (0x0C, s.olen), (0x10, s.cap)] →
      s.schedule = .host (.read off .word) :: rest →
      step s = .next { s with schedule := rest, port := .word v :: s.port }) ∧
    (∀ w, s.schedule = .host (.write 0x00 (.word w)) :: rest →
      step s = .next (acceptCommand w (s.withSchedule rest))) ∧
    (∀ w, s.schedule = .host (.write 0x08 (.word w)) :: rest → step s = .next { s with schedule := rest, ilen := w }) ∧
    (∀ i, i < s.inCap → s.schedule = .host (.read (BitVec.ofNat 18 (0x10000 + i)) .byte) :: rest →
      step s = .next { s with schedule := rest, port := .byte (s.ibufByte i) :: s.port }) ∧
    (∀ i b, i < s.inCap → s.schedule = .host (.write (BitVec.ofNat 18 (0x10000 + i)) (.byte b)) :: rest →
      ∃ t, step s = .next t ∧ (∀ j, t.ibufByte j = if j = i then b else s.ibufByte j) ∧ t.cmd = s.cmd ∧
        t.status = s.status ∧ t.ilen = s.ilen ∧ t.olen = s.olen ∧ (∀ j, t.obufByte j = s.obufByte j) ∧
        SameEnvironment (s.withSchedule rest) t) ∧
    (∀ i, i < s.outCap → s.schedule = .host (.read (BitVec.ofNat 18 (0x20000 + i)) .byte) :: rest →
      step s = .next { s with schedule := rest,
                              port := .byte (if i < s.olen.toNat then s.obufByte i else 0x00) :: s.port })

/-- 20_memory.md R47: an access is refused exactly when it is of no listed form, in every state. -/
def Obligations.OtherAccessesAreRefused : Prop :=
  ∀ (s : State) (a : Access) (rest : List Turn), s.schedule = .host a :: rest →
    (step s = .refused .accessWithoutMeaning ↔ ¬listedAccess s.inCap a)

/-- 20_memory.md R48: a read changes nothing of the block and, while `BUSY` = 0, may be repeated with the same answer;
a write to `ILEN` or `IBUF` twice is the write once. -/
def Obligations.ReadsHaveNoSideEffect : Prop :=
  (∀ (s t : State) (off : Offset) (n : Width) (rest : List Turn), s.schedule = .host (.read off n) :: rest →
    step s = .next t → SameBlock s t ∧ t.schedule = rest ∧ ∃ v, t.port = v :: s.port) ∧
  (∀ (s t : State) (off : Offset) (n : Width) (rest : List Turn), s.status.busy = false →
    s.schedule = .host (.read off n) :: .host (.read off n) :: rest → runTurnsOf 2 s = .next t →
    ∃ v, t.port = v :: v :: s.port) ∧
  (∀ (s t : State) (off : Offset) (d : PortData) (rest : List Turn), off ≠ 0x00 →
    s.schedule = .host (.write off d) :: .host (.write off d) :: rest → runTurnsOf 2 s = .next t →
    step { s with schedule := .host (.write off d) :: rest } = .next t)

/-- 10_state.md R31: while `BUSY` = 1 the engine's step is available and completes the command, whatever the state holds;
while `BUSY` = 0 it has none. That the engine has the turn when nothing is scheduled, and that an engine turn while `BUSY` =
0 leaves all but the schedule, is the model's choice (log entry 4; R173 says that a command in flight still completes and
that an idle block stays as it is). -/
def Obligations.EngineStepAlwaysCompletes : Prop :=
  (∀ s : State, s.status.busy = true → (s.schedule = [] ∨ ∃ rest, s.schedule = .engine :: rest) →
    ∃ t, step s = .next t ∧ t.status.busy = false ∧ t.status.done = true ∧ t.cmd = s.cmd ∧ t.port = s.port) ∧
  (∀ (s : State) (rest : List Turn), s.status.busy = false → s.schedule = .engine :: rest →
    step s = .next (s.withSchedule rest)) ∧
  (∀ s : State, s.status.busy = false → s.schedule = [] → step s = .next s)

/-- 70_reset_and_hazards.md R172, 10_state.md R31: with legal accesses scheduled, the block is idle after finitely many
steps, at most one more than the turns scheduled. A command in flight ends by its completion, or is abandoned where the
schedule holds a reset (R161). That an exhausted schedule leaves the turn to the engine is the model's (log entry 4). -/
def Obligations.LegalScheduleEndsIdle : Prop :=
  ∀ s : State, s.scheduleLegal →
    ∃ t, runTurnsOf (s.schedule.length + 1) s = .next t ∧ t.status.busy = false ∧ t.schedule = []

/-- 10_state.md R15: `BUSY` is set by the acceptance of a command and by nothing else, and cleared by a completion, by
reset and by nothing else; while it is 1 the engine owns `IBUF`, `ILEN`, `OBUF` and `OLEN`. That the engine has the turn
when nothing is scheduled is the model's choice (log entry 4; R173 says that such a command still completes). -/
def Obligations.OnlyStartSetsBusyOnlyEngineOrResetClearsIt : Prop :=
  ∀ s t : State, step s = .next t →
    (s.status.busy = false →
      (t.status.busy = true ↔ ∃ w rest, s.schedule = .host (.write 0x00 (.word w)) :: rest)) ∧
    (s.status.busy = true →
      (t.status.busy = false ↔
        s.schedule = [] ∨ ∃ rest, s.schedule = .engine :: rest ∨ s.schedule = .reset :: rest)) ∧
    (s.status.busy = true → t.status.busy = true →
      t.ilen = s.ilen ∧ t.olen = s.olen ∧ (∀ k, t.ibufByte k = s.ibufByte k) ∧ (∀ k, t.obufByte k = s.obufByte k))

/-- 10_state.md R20, R21, R23: what can change `ILEN`, `OLEN` and `IBUF` in one step of an idle or busy block, reset
apart: a host write to `ILEN` or `IBUF`, a successful `XFER`; and for `OLEN` a completion. -/
def Obligations.OnlyTheseEventsChangeOperands : Prop :=
  ∀ s t : State, step s = .next t → (∀ rest, s.schedule ≠ .reset :: rest) →
    (t.ilen ≠ s.ilen → (∃ w rest, s.schedule = .host (.write 0x08 (.word w)) :: rest ∧ t.ilen = w) ∨
      (s.status.busy = true ∧ s.cmd = encode .xfer ∧ t.status = .succeeded ∧ t.ilen = s.olen)) ∧
    (t.olen ≠ s.olen → s.status.busy = true ∧ t.status.busy = false ∧ t.status.done = true) ∧
    (∀ i, t.ibufByte i ≠ s.ibufByte i →
      (∃ off b rest, s.schedule = .host (.write off (.byte b)) :: rest ∧ off.toNat = 0x10000 + i ∧ t.ibufByte i = b) ∨
      (s.status.busy = true ∧ s.cmd = encode .xfer ∧ t.status = .succeeded ∧ i < s.olen.toNat))

/-- A completed command's report and result stay until the next accepted command or reset (70_reset_and_hazards.md R168,
60_exceptions.md R147): every other step of an idle block leaves them. -/
def Obligations.ReportAndResultPersist : Prop :=
  ∀ s t : State, s.status.busy = false → step s = .next t →
    (∀ w rest, s.schedule ≠ .host (.write 0x00 (.word w)) :: rest) → (∀ rest, s.schedule ≠ .reset :: rest) →
    t.status = s.status ∧ t.cmd = s.cmd ∧ t.olen = s.olen ∧ ∀ k, t.obufView k = s.obufView k

/-! ### STATUS and the commits -/

/-- 10_state.md R19 (with the field places of R14). -/
def Obligations.StatusWordLayout : Prop :=
  ∀ st : Status,
    (statusWord st).getLsbD 0 = st.busy ∧ (statusWord st).getLsbD 1 = st.done ∧ (statusWord st).getLsbD 2 = st.err ∧
    (statusWord st).extractLsb' 8 4 = st.ecode ∧
    ∀ k, (3 ≤ k ∧ k ≤ 7) ∨ (12 ≤ k ∧ k ≤ 31) → (statusWord st).getLsbD k = false

/-- 10_state.md R32: when the pseudocode of a command other than `XFER` ends with `out`. (That the storage above the
result stays, in the frame, is the model's choice: log entry 3; no host read shows it.) -/
def Obligations.SuccessCommit : Prop :=
  ∀ (i : Instr) (s : State) (f : List Byte → Conversion) (out : List Byte), s.capInRange →
    pseudocode s.strictTailBits i = some f → s.ilen.toNat ≤ s.inCap → f s.input = .out out →
    ∃ t, exec i s = .next t ∧ t.olen.toNat = out.length ∧ t.result = out ∧
      t.status = { busy := false, done := true, err := false, ecode := 0 } ∧ ConversionFrame s t

/-- 60_exceptions.md R146: a completion that failed, whatever the command word was. -/
def Obligations.FailureCommit : Prop :=
  ∀ s t : State, completeCommand s = .next t → t.status.err = true →
    (∃ e : ErrorClass, t.status = { busy := false, done := true, err := true, ecode := e.code }) ∧ t.olen = 0 ∧
    t.cmd = s.cmd ∧ t.ilen = s.ilen ∧ (∀ i, t.ibufByte i = s.ibufByte i) ∧ (∀ i, t.obufView i = 0) ∧
    (∀ i, t.obufByte i = s.obufByte i) ∧ SameEnvironment s t

/-- 60_exceptions.md R145: `IllegalCommand` before `InvalidArgument` before `InvalidEncoding`, which is reported only for an
input that fits, and then only for one that is invalid (for `EXT2B` on the path the source leaves unconfirmed: log
entry 11). -/
def Obligations.ErrorPriority : Prop :=
  ∀ s : State,
    ((∀ i, s.cmd ≠ encode i) → completeCommand s = .next (failureCommit .illegalCommand s)) ∧
    (∀ i, s.cmd = encode i → i ≠ .xfer → s.inCap < s.ilen.toNat →
      completeCommand s = .next (failureCommit .invalidArgument s)) ∧
    (s.cmd = encode .xfer → s.inCap < s.olen.toNat → completeCommand s = .next (failureCommit .invalidArgument s)) ∧
    (∀ i, s.cmd = encode i → i ≠ .xfer → s.ilen.toNat ≤ s.inCap → invalidInput s.strictTailBits i s.input = true →
      completeCommand s = .next (failureCommit .invalidEncoding s)) ∧
    (∀ t, completeCommand s = .next t → t.status = .failed .invalidEncoding →
      s.ilen.toNat ≤ s.inCap ∧ ∃ i, s.cmd = encode i ∧ i ≠ .xfer ∧ invalidInput s.strictTailBits i s.input = true)

/-- 60_exceptions.md R142: `InvalidArgument` is raised by, and only by, a length that does not fit. -/
def Obligations.InvalidArgumentExactly : Prop :=
  ∀ s t : State, completeCommand s = .next t →
    (t.status = .failed .invalidArgument ↔
      (∃ i, s.cmd = encode i ∧ i ≠ .xfer ∧ s.inCap < s.ilen.toNat) ∨ (s.cmd = encode .xfer ∧ s.inCap < s.olen.toNat))

/-- 60_exceptions.md R143: `IllegalCommand` is raised by, and only by, a word that is none of the eleven, whatever the
rest of the state holds. -/
def Obligations.IllegalCommandExactly : Prop :=
  ∀ s t : State, completeCommand s = .next t →
    (t.status = .failed .illegalCommand ↔ ∀ i, s.cmd ≠ encode i)

/-- 60_exceptions.md R141: `InvalidEncoding` is raised by, and only by, the inputs of its table (for `EXT2B` on the path
the source leaves unconfirmed: log entry 11). -/
def Obligations.InvalidEncodingExactly : Prop :=
  ∀ (i : Instr) (s t : State), (i = .xfer ∨ s.ilen.toNat ≤ s.inCap) → exec i s = .next t →
    (t.status = .failed .invalidEncoding ↔ invalidInput s.strictTailBits i s.input = true)

/-- 00_scope.md R3: what a command delivers depends only on the command word, `ILEN` and the input bytes; for `XFER` on
`OLEN` and `OBUF[0 .. OLEN-1]`. -/
def Obligations.CommandsArePure : Prop :=
  ∀ s u : State, s.cmd = u.cmd → s.cap = u.cap → s.strictTailBits = u.strictTailBits →
    (s.cmd ≠ encode .xfer → s.ilen = u.ilen → (∀ k < s.ilen.toNat, s.ibufByte k = u.ibufByte k) →
      ∃ t v, completeCommand s = .next t ∧ completeCommand u = .next v ∧ t.status = v.status ∧ t.olen = v.olen ∧
        ∀ k, t.obufView k = v.obufView k) ∧
    (s.cmd = encode .xfer → s.olen = u.olen → (∀ k < s.olen.toNat, s.obufByte k = u.obufByte k) →
      ∃ t v, completeCommand s = .next t ∧ completeCommand u = .next v ∧ t.status = v.status ∧
        (t.status.err = false → t.ilen = v.ilen ∧ ∀ k < t.ilen.toNat, t.ibufByte k = v.ibufByte k))

/-- 70_reset_and_hazards.md R169, 10_state.md R23: every command but a successful `XFER` leaves `ILEN` and `IBUF`; a
successful `XFER` overwrites `ILEN` and the bytes below it. -/
def Obligations.InputLifetime : Prop :=
  ∀ (i : Instr) (s t : State), exec i s = .next t →
    (i ≠ .xfer ∨ t.status.err = true → t.ilen = s.ilen ∧ ∀ k, t.ibufByte k = s.ibufByte k) ∧
    (i = .xfer → t.status.err = false →
      t.ilen = s.olen ∧ (∀ k < t.ilen.toNat, t.ibufByte k = s.obufByte k) ∧
      (∀ k, t.ilen.toNat ≤ k → t.ibufByte k = s.ibufByte k))

/-- 10_state.md R21: the longest result of each command, and that it fits `OBUF`. -/
def Obligations.ResultLengthsFit : Prop :=
  ∀ (i : Instr) (s t : State), s.capInRange → i ≠ .xfer → exec i s = .next t → t.status.err = false →
    t.olen.toNat ≤ longestResult i s.ilen.toNat ∧ t.olen.toNat ≤ s.outCap

/-! ### The commands -/

/-- 40_hex.md R80, R81: `out[2k] = HEXD[in[k] >> 4]`, `out[2k+1] = HEXD[in[k] & 15]`. That `ConversionFrame` keeps the
storage of `OBUF` above the result is the model's choice (log entry 3). -/
def Obligations.B2hWritesTwoDigitsPerByte : Prop :=
  encode .b2h = 0x00000001 ∧ ∀ s : State, s.capInRange →
    (s.ilen.toNat ≤ s.inCap → ∃ t, exec .b2h s = .next t ∧ t.status = .succeeded ∧ t.olen.toNat = 2 * s.ilen.toNat ∧
      (∀ k < s.ilen.toNat, t.obufByte (2 * k) = hexd (BitVec.ofNat 4 ((s.ibufByte k).toNat / 16)) ∧
        t.obufByte (2 * k + 1) = hexd (BitVec.ofNat 4 ((s.ibufByte k).toNat % 16))) ∧ ConversionFrame s t) ∧
    (s.inCap < s.ilen.toNat → exec .b2h s = .next (failureCommit .invalidArgument s))

/-- 40_hex.md R82. That `ConversionFrame` keeps the storage of `OBUF` above the result is the model's choice (log
entry 3). -/
def Obligations.H2bReadsDigitPairs : Prop :=
  encode .h2b = 0x00000002 ∧ ∀ s : State, s.capInRange →
    (s.ilen.toNat ≤ s.inCap → isHexString s.input = true →
      ∃ t, exec .h2b s = .next t ∧ t.status = .succeeded ∧ t.olen.toNat = s.ilen.toNat / 2 ∧
        (∀ k < s.ilen.toNat / 2, ∃ hi lo, hexInv (s.ibufByte (2 * k)) = some hi ∧
          hexInv (s.ibufByte (2 * k + 1)) = some lo ∧ (t.obufByte k).toNat = hi.toNat * 16 + lo.toNat) ∧
        ConversionFrame s t) ∧
    (s.ilen.toNat ≤ s.inCap → isHexString s.input = false → exec .h2b s = .next (failureCommit .invalidEncoding s)) ∧
    (s.inCap < s.ilen.toNat → exec .h2b s = .next (failureCommit .invalidArgument s))

/-- 41_base64.md R90 in the uniform form of R91: window `j` with `r` real bytes gives `STD` of its first `r + 1` sextets,
then `=`. That `ConversionFrame` keeps the storage of `OBUF` above the result is the model's choice (log entry 3). -/
def Obligations.B64eWritesSextetsAndPadding : Prop :=
  encode .b64e = 0x00000003 ∧ ∀ s : State, s.capInRange →
    (s.ilen.toNat ≤ s.inCap → ∃ t, exec .b64e s = .next t ∧ t.status = .succeeded ∧
      t.olen.toNat = 4 * ((s.ilen.toNat + 2) / 3) ∧
      (∀ j < (s.ilen.toNat + 2) / 3, ∀ q < 4,
        t.obufByte (4 * j + q) =
          if q ≤ min 3 (s.ilen.toNat - 3 * j) then std (BitVec.ofNat 6 (windowValue s j / 2 ^ (18 - 6 * q)))
          else padChar) ∧ ConversionFrame s t) ∧
    (s.inCap < s.ilen.toNat → exec .b64e s = .next (failureCommit .invalidArgument s))

/-- 41_base64.md R94 to R97: on accepted input the bytes are those of the quanta's 24-bit values; any other input
fails. That `ConversionFrame` keeps the storage of `OBUF` above the result is the model's choice (log entry 3). -/
def Obligations.B64dReadsQuanta : Prop :=
  encode .b64d = 0x00000004 ∧ ∀ s : State, s.capInRange →
    (s.ilen.toNat ≤ s.inCap → acceptedBase64 s.strictTailBits s.input = true →
      ∃ t, exec .b64d s = .next t ∧ t.status = .succeeded ∧
        t.olen.toNat = 3 * (s.ilen.toNat / 4) - s.input.count padChar ∧
        (∀ j m, m < 3 → 3 * j + m < t.olen.toNat →
          (t.obufByte (3 * j + m)).toNat = quantumValue s j / 2 ^ (16 - 8 * m) % 256) ∧ ConversionFrame s t) ∧
    (s.ilen.toNat ≤ s.inCap → acceptedBase64 s.strictTailBits s.input = false →
      exec .b64d s = .next (failureCommit .invalidEncoding s)) ∧
    (s.inCap < s.ilen.toNat → exec .b64d s = .next (failureCommit .invalidArgument s))

/-- 41_base64.md R100: the `B64E` of the `H2B` of the input. That `ConversionFrame` keeps the storage of `OBUF` above the
result is the model's choice (log entry 3). -/
def Obligations.H2b64Composes : Prop :=
  encode .h2b64 = 0x00000005 ∧ ∀ s : State, s.capInRange →
    (s.ilen.toNat ≤ s.inCap → isHexString s.input = true →
      ∃ t bytes, exec .h2b64 s = .next t ∧ t.status = .succeeded ∧ hexToBytes s.input = .out bytes ∧
        t.result = bytesToBase64 bytes ∧ t.olen.toNat = 4 * ((s.ilen.toNat + 5) / 6) ∧ ConversionFrame s t) ∧
    (s.ilen.toNat ≤ s.inCap → isHexString s.input = false →
      exec .h2b64 s = .next (failureCommit .invalidEncoding s)) ∧
    (s.inCap < s.ilen.toNat → exec .h2b64 s = .next (failureCommit .invalidArgument s))

/-- 41_base64.md R102: the `B2H` of the `B64D` of the input. That `ConversionFrame` keeps the storage of `OBUF` above the
result is the model's choice (log entry 3). -/
def Obligations.B642hComposes : Prop :=
  encode .b642h = 0x00000006 ∧ ∀ s : State, s.capInRange →
    (s.ilen.toNat ≤ s.inCap → acceptedBase64 s.strictTailBits s.input = true →
      ∃ t bytes, exec .b642h s = .next t ∧ t.status = .succeeded ∧
        base64ToBytes s.strictTailBits s.input = .out bytes ∧ t.result = bytesToHex bytes ∧
        t.olen.toNat = 2 * (3 * (s.ilen.toNat / 4) - s.input.count padChar) ∧ ConversionFrame s t) ∧
    (s.ilen.toNat ≤ s.inCap → acceptedBase64 s.strictTailBits s.input = false →
      exec .b642h s = .next (failureCommit .invalidEncoding s)) ∧
    (s.inCap < s.ilen.toNat → exec .b642h s = .next (failureCommit .invalidArgument s))

/-- 42_variants.md R110, R111: `+` to `-`, `/` to `_`, every `=` gone, every other byte as it is; never fails on data.
That `ConversionFrame` keeps the storage of `OBUF` above the result is the model's choice (log entry 3). -/
def Obligations.B2urlSubstitutesAndStrips : Prop :=
  encode .b2url = 0x00000007 ∧ ∀ s : State, s.capInRange →
    (s.ilen.toNat ≤ s.inCap → ∃ t, exec .b2url s = .next t ∧ t.status = .succeeded ∧
      t.olen.toNat = s.ilen.toNat - s.input.count padChar ∧
      t.result = (s.input.filter (fun c => c ≠ padChar)).map
        (fun c => if c = 0x2B then 0x2D else if c = 0x2F then 0x5F else c) ∧ ConversionFrame s t) ∧
    (s.inCap < s.ilen.toNat → exec .b2url s = .next (failureCommit .invalidArgument s))

/-- 42_variants.md R112, R113, R114. That `ConversionFrame` keeps the storage of `OBUF` above the result is the model's
choice (log entry 3). -/
def Obligations.Url2bSubstitutesAndRepads : Prop :=
  encode .url2b = 0x00000008 ∧ ∀ s : State, s.capInRange →
    (s.ilen.toNat ≤ s.inCap → isBase64Url s.input = true → ∃ t, exec .url2b s = .next t ∧ t.status = .succeeded ∧
      t.olen.toNat = s.ilen.toNat + (4 - s.ilen.toNat % 4) % 4 ∧
      (∀ k < s.ilen.toNat, t.obufByte k =
        if s.ibufByte k = 0x2D then 0x2B else if s.ibufByte k = 0x5F then 0x2F else s.ibufByte k) ∧
      (∀ k, s.ilen.toNat ≤ k → k < t.olen.toNat → t.obufByte k = padChar) ∧ ConversionFrame s t) ∧
    (s.ilen.toNat ≤ s.inCap → isBase64Url s.input = false →
      exec .url2b s = .next (failureCommit .invalidEncoding s)) ∧
    (s.inCap < s.ilen.toNat → exec .url2b s = .next (failureCommit .invalidArgument s))

/-- 42_variants.md R116, R117. That `ConversionFrame` keeps the storage of `OBUF` above the result is the model's choice
(log entry 3). -/
def Obligations.B2extStripsAndPermutes : Prop :=
  encode .b2ext = 0x00000009 ∧ ∀ s : State, s.capInRange →
    (s.ilen.toNat ≤ s.inCap → isStdOrPad s.input = true → ∃ t, exec .b2ext s = .next t ∧ t.status = .succeeded ∧
      t.olen.toNat = s.ilen.toNat - s.input.count padChar ∧
      t.result = (s.input.filter (fun c => c ≠ padChar)).map (fun c => ext (sextetOf c)) ∧ ConversionFrame s t) ∧
    (s.ilen.toNat ≤ s.inCap → isStdOrPad s.input = false →
      exec .b2ext s = .next (failureCommit .invalidEncoding s)) ∧
    (s.inCap < s.ilen.toNat → exec .b2ext s = .next (failureCommit .invalidArgument s))

/-- 42_variants.md R120. It rests on a decode path the source itself leaves unconfirmed (93 U2; log entry 11), and the
re-padding is the spec's own decision (92 D25). That `ConversionFrame` keeps the storage of `OBUF` above the result is the
model's choice (log entry 3). -/
def Obligations.Ext2bPermutesAndRepads : Prop :=
  encode .ext2b = 0x0000000A ∧ ∀ s : State, s.capInRange →
    (s.ilen.toNat ≤ s.inCap → isBase64Ext s.input = true → ∃ t, exec .ext2b s = .next t ∧ t.status = .succeeded ∧
      t.olen.toNat = s.ilen.toNat + (4 - s.ilen.toNat % 4) % 4 ∧
      (∀ k < s.ilen.toNat, ∃ v, extInv (s.ibufByte k) = some v ∧ t.obufByte k = std v) ∧
      (∀ k, s.ilen.toNat ≤ k → k < t.olen.toNat → t.obufByte k = padChar) ∧ ConversionFrame s t) ∧
    (s.ilen.toNat ≤ s.inCap → isBase64Ext s.input = false →
      exec .ext2b s = .next (failureCommit .invalidEncoding s)) ∧
    (s.inCap < s.ilen.toNat → exec .ext2b s = .next (failureCommit .invalidArgument s))

/-- 43_buffer.md R131. -/
def Obligations.XferCopiesTheResult : Prop :=
  encode .xfer = 0x0000000B ∧ ∀ s : State,
    (s.olen.toNat ≤ s.inCap → ∃ t, exec .xfer s = .next t ∧ t.status = .succeeded ∧ t.ilen = s.olen ∧
      (∀ k < s.olen.toNat, t.ibufByte k = s.obufByte k) ∧ (∀ k, s.olen.toNat ≤ k → t.ibufByte k = s.ibufByte k) ∧
      t.olen = s.olen ∧ (∀ k, t.obufByte k = s.obufByte k) ∧ t.cmd = s.cmd ∧ SameEnvironment s t) ∧
    (s.inCap < s.olen.toNat → exec .xfer s = .next (failureCommit .invalidArgument s))

/-- 43_buffer.md R130: a successful `XFER` has exactly the effect of the host's own copy. -/
def Obligations.XferEqualsTheHostsCopy : Prop :=
  ∀ s : State, s.capInRange → s.status.busy = false → s.olen.toNat ≤ s.inCap →
    s.schedule = (handCopy s.olen.toNat s.obufByte).map .host →
    ∃ t u, exec .xfer s = .next t ∧ runTurnsOf (2 * s.olen.toNat + 2) s = .next u ∧
      u.ilen = t.ilen ∧ (∀ k, u.ibufByte k = t.ibufByte k) ∧ u.olen = t.olen ∧ (∀ k, u.obufByte k = t.obufByte k) ∧
      u.cmd = t.cmd ∧ u.status = s.status ∧
      u.port = ((List.range s.olen.toNat).map (fun k => PortData.byte (s.obufByte k))).reverse ++
        .word s.olen :: s.port

/-! ### Round trips, equivalences, order -/

/-- 40_hex.md R83: on sequences, and on the block with `XFER` between. -/
def Obligations.HexRoundTrip : Prop :=
  (∀ b : List Byte, hexToBytes (bytesToHex b) = .out b) ∧
  (∀ t : List Byte, isHexString t = true → ∃ b, hexToBytes t = .out b ∧ bytesToHex b = t.map lowerDigit) ∧
  (∀ s : State, s.capInRange → 2 * s.ilen.toNat ≤ s.inCap →
    ∃ t u v, runCommand .b2h s = .next t ∧ runCommand .xfer t = .next u ∧ runCommand .h2b u = .next v ∧
      v.status = .succeeded ∧ v.result = s.input)

/-- 41_base64.md R98: for either value of `STRICT_TAIL_BITS`. -/
def Obligations.Base64RoundTrip : Prop :=
  (∀ (strict : Bool) (b : List Byte), base64ToBytes strict (bytesToBase64 b) = .out b) ∧
  (∀ (strict : Bool) (t b : List Byte), base64ToBytes strict t = .out b → (strict = true ∨ isCanonicalBase64 t = true) →
    bytesToBase64 b = t) ∧
  (∀ s : State, s.capInRange → 4 * ((s.ilen.toNat + 2) / 3) ≤ s.inCap →
    ∃ t u v, runCommand .b64e s = .next t ∧ runCommand .xfer t = .next u ∧ runCommand .b64d u = .next v ∧
      v.status = .succeeded ∧ v.result = s.input)

/-- 41_base64.md R103: the fused commands equal two commands joined by a transfer. -/
def Obligations.FusedCommandsEqualChains : Prop :=
  ∀ s : State, s.capInRange → fusedEqualsChain .h2b64 .h2b .b64e s ∧ fusedEqualsChain .b642h .b64d .b2h s

/-- 42_variants.md R121 (the part on `EXT2B` rests on the path the source leaves unconfirmed: log entry 11). -/
def Obligations.VariantRoundTrips : Prop :=
  (∀ t : List Byte, isBase64 t = true → base64UrlToBase64 (base64ToBase64Url t) = .out t) ∧
  (∀ t : List Byte, isBase64 t = true → ∃ x, base64ToBase64Ext t = .out x ∧ base64ExtToBase64 x = .out t) ∧
  (∀ u : List Byte, isBase64Url u = true → ∃ t, base64UrlToBase64 u = .out t ∧ base64ToBase64Url t = u) ∧
  (∀ x : List Byte, isBase64Ext x = true → ∃ t, base64ExtToBase64 x = .out t ∧ base64ToBase64Ext t = .out x)

/-- 42_variants.md R119: `E` keeps and reflects the order of byte sequences, which for equal lengths is the numeric order;
and it does not extend to non-canonical strings (a clause on `EXT2B`, whose path the source leaves unconfirmed: log
entry 11). -/
def Obligations.ExtImagesKeepTheOrder : Prop :=
  (∀ a b : List Byte, ∃ x y, base64ToBase64Ext (bytesToBase64 a) = .out x ∧
    base64ToBase64Ext (bytesToBase64 b) = .out y ∧ (lexLess a b ↔ lexLess x y)) ∧
  (∀ a b : List Byte, a.length = b.length → (lexLess a b ↔ bigEndianValue a < bigEndianValue b)) ∧
  (∃ x y : List Byte, x ≠ y ∧ ∃ b : List Byte, (base64ExtToBase64 x).andThen (base64ToBytes false) = .out b ∧
    (base64ExtToBase64 y).andThen (base64ToBytes false) = .out b)

/-- 10_state.md R27: the inverse lookups. -/
def Obligations.InverseLookups : Prop :=
  (∀ (c : Byte) (v : Sextet), stdInv c = some v ↔ std v = c) ∧
  (∀ (c : Byte) (v : Sextet), extInv c = some v ↔ ext v = c) ∧
  (stdInv 0x3D = none ∧ stdInv 0x2D = none ∧ stdInv 0x5F = none ∧ extInv 0x2B = none ∧ extInv 0x2F = none ∧
    extInv 0x3D = none) ∧
  (∀ c : Byte, 0x80 ≤ c.toNat ∨ c.toNat ≤ 0x20 ∨ c.toNat = 0x7F → stdInv c = none ∧ extInv c = none)

/-- 42_variants.md R118, 10_state.md R25: the substitution is a bijection of the 64 symbols, and `EXT` rises strictly. -/
def Obligations.SubstitutionIsABijection : Prop :=
  (∀ c ∈ stdTable, ∃ d ∈ extTable, toExtChar c = some d) ∧ (∀ d ∈ extTable, ∃ c ∈ stdTable, toExtChar c = some d) ∧
  (∀ b c d : Byte, toExtChar b = some d → toExtChar c = some d → b = c) ∧
  (∀ u v : Sextet, u < v → ext u < ext v)

/-! ### Reset and the invariant -/

/-- The state after reset (10_state.md R35). -/
def Obligations.ResetValues : Prop :=
  State.reset.cmd = 0 ∧ statusWord State.reset.status = 0 ∧ State.reset.ilen = 0 ∧ State.reset.olen = 0 ∧
  State.reset.inCap = Config.inCap ∧ (∀ i, State.reset.obufView i = 0) ∧ State.reset.status.busy = false ∧
  (∀ i, State.reset.ibufByte i = Config.ibufFill 0 i)

/-- 70_reset_and_hazards.md R160, R161: whatever the block was doing, without a commit or a report. (That `IBUF` holds
fresh free values is the model's form of "unspecified": log entry 2.) -/
def Obligations.ResetFromAnyState : Prop :=
  ∀ (s : State) (rest : List Turn), s.schedule = .reset :: rest →
    ∃ t, step s = .next t ∧ t.cmd = 0 ∧ statusWord t.status = 0 ∧ t.ilen = 0 ∧ t.olen = 0 ∧ t.cap = s.cap ∧
      t.strictTailBits = s.strictTailBits ∧ (∀ i, t.obufView i = 0) ∧
      (∀ i, t.ibufByte i = Config.ibufFill (s.fills + 1) i) ∧ t.schedule = rest ∧ t.port = s.port

/-- The invariant of 10_state.md R36 holds after reset. -/
def Obligations.ResetMeetsTheInvariant : Prop := Inv State.reset

/-- 10_state.md R36: from every state that meets the invariant, every step keeps it: completions, host accesses and
reset. -/
def Obligations.EveryStepKeepsTheInvariant : Prop :=
  ∀ s t : State, Inv s → step s = .next t → Inv t

/-- 10_state.md R22, R36 (e): no step changes the `CAP` register, so after reset it holds `IN_CAP` under any schedule; a read
of it returns its value, whether or not a command is running, and a write to it is ignored. That the parameter
`STRICT_TAIL_BITS` (00_scope.md R7) stays too is a clause on how the model holds the parameters (log entry 1). -/
def Obligations.CapAlwaysReadsInCap : Prop :=
  (∀ s t : State, step s = .next t → t.cap = s.cap ∧ t.strictTailBits = s.strictTailBits) ∧
  (∀ (turns : List Turn) (n : Nat) (t : State), runTurnsOf n { State.reset with schedule := turns } = .next t →
    t.cap.toNat = Config.inCap ∧ t.strictTailBits = Config.strictTailBits) ∧
  (∀ (s : State) (rest : List Turn), s.schedule = .host (.read 0x10 .word) :: rest →
    step s = .next { s with schedule := rest, port := .word s.cap :: s.port }) ∧
  (∀ (s : State) (w : Word) (rest : List Turn), s.schedule = .host (.write 0x10 (.word w)) :: rest →
    step s = .next (s.withSchedule rest))

/-! ### The host script -/

/-- `LOADB` on an idle block (30_encoding.md R71): afterwards the input is the sequence, and nothing else has changed. -/
def Obligations.LoadbPlacesTheInput : Prop :=
  ∀ (s : State) (bs : List Byte) (rest : List Turn), s.capInRange → s.status.busy = false → bs.length ≤ s.inCap →
    s.schedule = (loadb bs).map .host ++ rest →
    ∃ t, runTurnsOf (bs.length + 1) s = .next t ∧ t.input = bs ∧
      (∀ k, bs.length ≤ k → t.ibufByte k = s.ibufByte k) ∧ t.cmd = s.cmd ∧ t.status = s.status ∧ t.olen = s.olen ∧
      (∀ k, t.obufByte k = s.obufByte k) ∧ SameEnvironment (s.withSchedule rest) t

/-- `RUN M` on an idle block with `polls` reads of `STATUS` before the completion (30_encoding.md R71, 10_state.md R31):
every one of them reads 0x00000001, the command is the one of the word, and the last read is its report. That the
schedule fixes how many polls see `BUSY` = 1 is the model's (log entry 4). -/
def Obligations.RunPollsUntilDone : Prop :=
  ∀ (s : State) (i : Instr) (polls : Nat) (rest : List Turn), s.status.busy = false →
    s.schedule = runTurns (encode i) polls ++ rest →
    ∃ u, exec i { acceptCommand (encode i) s with
          schedule := .host (rdReg .status) :: rest, port := List.replicate polls (.word 0x00000001) ++ s.port } = .next u ∧
      runTurnsOf (polls + 3) s = .next { u with schedule := rest, port := .word (statusWord u.status) :: u.port } ∧
      u.port = List.replicate polls (.word 0x00000001) ++ s.port ∧ u.status.busy = false ∧ u.status.done = true
end

