-- ==== Sys2Proof/Laws/Lengths.lean ====
section
/-! SUPPORT. How the pseudocodes combine, which class they raise, and how long their results are (10_state.md R21). -/

namespace Sys2Proof.Machine

theorem append_eq_out {c d : Conversion} {out : List Byte} (h : c.append d = .out out) :
    ∃ a b, c = .out a ∧ d = .out b ∧ out = a ++ b := by
  cases c <;> cases d <;> simp_all [Conversion.append]

theorem andThen_eq_out {c : Conversion} {f : List Byte → Conversion} {out : List Byte} (h : c.andThen f = .out out) :
    ∃ a, c = .out a ∧ f a = .out out := by
  cases c <;> simp_all [Conversion.andThen]

/-- Two digits per byte (40_hex.md R80). -/
@[simp] theorem bytesToHex_length (bs : List Byte) : (bytesToHex bs).length = 2 * bs.length := by
  induction bs with
  | nil => rfl
  | cons b bs ih => simp [bytesToHex, ih]; omega

/-- Half a byte per digit (40_hex.md R82). -/
theorem hexPairs_length (s : List Byte) : ∀ out, hexPairs s = .out out → 2 * out.length = s.length := by
  induction s using hexPairs.induct with
  | case1 => intro out h; cases h; rfl
  | case2 => intro out h; cases h
  | case3 c0 c1 cs hi lo h0 h1 ih =>
    intro out h
    simp only [hexPairs, h0, h1] at h
    obtain ⟨a, b, ha, hb, rfl⟩ := append_eq_out h
    cases ha
    have := ih b hb
    simp; omega
  | case4 c0 c1 cs hn =>
    intro out h
    simp only [hexPairs] at h
    cases h

theorem hexToBytes_length {s out : List Byte} (h : hexToBytes s = .out out) : 2 * out.length = s.length := by
  unfold hexToBytes at h
  split at h
  · cases h
  · exact hexPairs_length s out h

/-- Four characters per window of three bytes (41_base64.md R90). -/
@[simp] theorem bytesToBase64_length (bs : List Byte) : (bytesToBase64 bs).length = 4 * ((bs.length + 2) / 3) := by
  induction bs using bytesToBase64.induct with
  | case1 => rfl
  | case2 => simp [bytesToBase64]
  | case3 => simp [bytesToBase64]
  | case4 a b c rest ih => simp [bytesToBase64, ih]; omega

theorem decodeQuantum_length {strict last : Bool} {c0 c1 c2 c3 : Byte} {out : List Byte}
    (h : decodeQuantum strict last c0 c1 c2 c3 = .out out) : out.length ≤ 3 := by
  unfold decodeQuantum at h
  repeat' split at h
  all_goals cases h
  all_goals simp

/-- At most three bytes per quantum (41_base64.md R94). -/
theorem decodeQuanta_length (strict : Bool) (s : List Byte) :
    ∀ out, decodeQuanta strict s = .out out → 4 * out.length ≤ 3 * s.length := by
  induction s using decodeQuanta.induct with
  | case1 => intro out h; cases h; simp
  | case2 c0 c1 c2 c3 rest ih =>
    intro out h
    obtain ⟨a, b, ha, hb, rfl⟩ := append_eq_out h
    have h1 := decodeQuantum_length ha
    have h2 := ih b hb
    simp only [List.length_append, List.length_cons]
    omega
  | case3 => intro out h; cases h
  | case4 => intro out h; cases h
  | case5 => intro out h; cases h

theorem base64ToBytes_length {strict : Bool} {s out : List Byte} (h : base64ToBytes strict s = .out out) :
    4 * out.length ≤ 3 * s.length := by
  unfold base64ToBytes at h
  split at h
  · cases h
  · exact decodeQuanta_length strict s out h

theorem base64ToBase64Url_length (s : List Byte) : (base64ToBase64Url s).length ≤ s.length :=
  List.length_filterMap_le _ _

@[simp] theorem mapChars_length {f : Byte → Option Byte} :
    ∀ {s out : List Byte}, mapChars f s = some out → out.length = s.length := by
  intro s
  induction s with
  | nil => intro out h; cases h; rfl
  | cons c cs ih =>
    intro out h
    simp only [mapChars] at h
    split at h
    · cases h; simp [ih ‹_›]
    · cases h

theorem repad_length {m : Nat} {out : List Byte} (h : repad m = .out out) : out.length ≤ 2 := by
  unfold repad at h
  repeat' split at h
  all_goals cases h
  all_goals simp

theorem emitChars_eq_out {o : Option (List Byte)} {out : List Byte} (h : emitChars o = .out out) : o = some out := by
  cases o <;> simp_all [emitChars]

theorem mapped_repadded_length {f : Byte → Option Byte} {s out : List Byte}
    (h : (emitChars (mapChars f s)).append (repad s.length) = .out out) : out.length ≤ s.length + 2 := by
  obtain ⟨a, b, ha, hb, rfl⟩ := append_eq_out h
  have h1 := mapChars_length (emitChars_eq_out ha)
  have h2 := repad_length hb
  simp only [List.length_append]
  omega

theorem base64ToBase64Ext_length {s out : List Byte} (h : base64ToBase64Ext s = .out out) :
    out.length ≤ s.length := by
  rw [mapChars_length (emitChars_eq_out h)]
  exact List.length_filter_le _ _

/-- No result is longer than twice the input and two bytes more (10_state.md R21). -/
theorem pseudocode_length {strict : Bool} {i : Instr} {f : List Byte → Conversion} (hi : pseudocode strict i = some f)
    {s out : List Byte} (h : f s = .out out) : out.length ≤ 2 * s.length + 2 := by
  cases i <;> simp only [pseudocode, Option.some.injEq, reduceCtorEq] at hi <;> subst hi
  case b2h => cases h; simp
  case h2b => have := hexToBytes_length h; omega
  case b64e => cases h; simp only [bytesToBase64_length]; omega
  case b64d => have := base64ToBytes_length h; omega
  case h2b64 =>
    obtain ⟨a, ha, hb⟩ := andThen_eq_out h
    have := hexToBytes_length ha
    cases hb; simp only [bytesToBase64_length]; omega
  case b642h =>
    obtain ⟨a, ha, hb⟩ := andThen_eq_out h
    have := base64ToBytes_length ha
    cases hb; simp only [bytesToHex_length]; omega
  case b2url => cases h; have := base64ToBase64Url_length s; omega
  case url2b => have := mapped_repadded_length h; omega
  case b2ext => have := base64ToBase64Ext_length h; omega
  case ext2b => have := mapped_repadded_length h; omega

/-- The only class a pseudocode raises is `InvalidEncoding` (60_exceptions.md R141, R142, R143). -/
theorem pseudocode_raises {strict : Bool} {i : Instr} {f : List Byte → Conversion} (hi : pseudocode strict i = some f)
    {s : List Byte} {e : ErrorClass} (h : f s = .raise e) : e = .invalidEncoding := by
  have happ : ∀ {c d : Conversion}, (∀ e, c = .raise e → e = .invalidEncoding) → (∀ e, d = .raise e → e = .invalidEncoding) →
      ∀ e, c.append d = .raise e → e = .invalidEncoding := by
    intro c d hc hd e he
    cases c <;> cases d <;> simp_all [Conversion.append]
  have hthen : ∀ {c : Conversion} {g : List Byte → List Byte}, (∀ e, c = .raise e → e = .invalidEncoding) →
      ∀ e, c.andThen (fun t => .out (g t)) = .raise e → e = .invalidEncoding := by
    intro c g hc e he
    cases c <;> simp_all [Conversion.andThen]
  have hhex : ∀ s e, hexToBytes s = .raise e → e = .invalidEncoding := by
    intro s e h
    unfold hexToBytes at h
    split at h
    · cases h; rfl
    · clear * - h happ
      induction s using hexPairs.induct generalizing e with
      | case1 => cases h
      | case2 => cases h; rfl
      | case3 c0 c1 cs hi lo h0 h1 ih =>
        simp only [hexPairs, h0, h1] at h
        exact happ (by simp) ih e h
      | case4 c0 c1 cs hn =>
        simp only [hexPairs] at h
        cases h; rfl
  have hb64 : ∀ s e, base64ToBytes strict s = .raise e → e = .invalidEncoding := by
    intro s e h
    unfold base64ToBytes at h
    split at h
    · cases h; rfl
    · clear * - h happ
      induction s using decodeQuanta.induct generalizing e with
      | case1 => cases h
      | case2 c0 c1 c2 c3 rest ih =>
        refine happ (fun e h => ?_) ih e h
        unfold decodeQuantum at h
        repeat' split at h
        all_goals cases h
        all_goals rfl
      | case3 => cases h; rfl
      | case4 => cases h; rfl
      | case5 => cases h; rfl
  have hemit : ∀ (o : Option (List Byte)) e, emitChars o = .raise e → e = .invalidEncoding := by
    intro o e h
    cases o <;> simp_all [emitChars]
  have hrepad : ∀ m e, repad m = .raise e → e = .invalidEncoding := by
    intro m e h
    unfold repad at h
    repeat' split at h
    all_goals cases h
    all_goals rfl
  cases i <;> simp only [pseudocode, Option.some.injEq, reduceCtorEq] at hi <;> subst hi
  case b2h => cases h
  case h2b => exact hhex s e h
  case b64e => cases h
  case b64d => exact hb64 s e h
  case h2b64 => exact hthen (hhex s) e h
  case b642h => exact hthen (hb64 s) e h
  case b2url => cases h
  case url2b => exact happ (hemit _) (hrepad _) e h
  case b2ext => exact hemit _ e h
  case ext2b => exact happ (hemit _) (hrepad _) e h

end Sys2Proof.Machine
end

