-- ==== Sys2Proof/Laws/Memory.lean ====
section
/-! SUPPORT. The laws of the buffers' store: read after write, the canonical form, and a sequence written in order. -/

namespace Sys2Proof.Machine

@[simp] theorem read?_nil (i : Nat) : Memory.read? [] i = none := rfl

theorem read?_write (m : Memory) (i j : Nat) (b : Byte) :
    (m.write i b).read? j = if i = j then some b else m.read? j := by
  induction m with
  | nil => rfl
  | cons c m ih =>
    obtain ⟨a, d⟩ := c
    simp only [Memory.write]
    split
    · simp only [Memory.read?]
    · split
      · subst_vars
        simp only [Memory.read?]
        split <;> rfl
      · simp only [Memory.read?, ih]
        split
        · split
          · omega
          · rfl
        · rfl

@[simp] theorem read?_write_same (m : Memory) (i : Nat) (b : Byte) : (m.write i b).read? i = some b := by
  simp [read?_write]

theorem read?_write_other (m : Memory) {i j : Nat} (b : Byte) (h : i ≠ j) :
    (m.write i b).read? j = m.read? j := by
  simp [read?_write, h]

/-- A cell after a write is the new one or an old one. -/
theorem mem_write {m : Memory} {i : Nat} {b : Byte} {c : Host.Cell} (h : c ∈ m.write i b) :
    c = (i, b) ∨ c ∈ m := by
  induction m with
  | nil => simpa [Memory.write] using h
  | cons d m ih =>
    obtain ⟨a, x⟩ := d
    simp only [Memory.write] at h
    split at h
    · simpa using h
    · split at h
      · rcases List.mem_cons.1 h with h | h
        · exact .inl h
        · exact .inr (List.mem_cons_of_mem _ h)
      · rcases List.mem_cons.1 h with h | h
        · exact .inr (by simp [h])
        · exact (ih h).imp_right (List.mem_cons_of_mem _)

/-- A write keeps the canonical form. -/
theorem write_wf {m : Memory} (i : Nat) (b : Byte) (h : Memory.wf m) : Memory.wf (m.write i b) := by
  induction m with
  | nil => simp [Memory.write]
  | cons d m ih =>
    obtain ⟨a, x⟩ := d
    obtain ⟨ha, hm⟩ := List.pairwise_cons.1 h
    simp only [Memory.write]
    split
    · rename_i hi
      refine List.pairwise_cons.2 ⟨fun c hc => ?_, h⟩
      rcases List.mem_cons.1 hc with rfl | hc
      · exact hi
      · exact Nat.lt_trans hi (ha c hc)
    · split
      · rename_i hi
        subst hi
        exact List.pairwise_cons.2 ⟨ha, hm⟩
      · refine List.pairwise_cons.2 ⟨fun c hc => ?_, ih hm⟩
        rcases mem_write hc with rfl | hc
        · simp only; omega
        · exact ha c hc

/-- The same byte written twice is the byte written once (20_memory.md R48). -/
theorem write_write (m : Memory) (i : Nat) (b c : Byte) : (m.write i b).write i c = m.write i c := by
  induction m with
  | nil => simp [Memory.write]
  | cons d m ih =>
    obtain ⟨a, x⟩ := d
    by_cases h1 : i < a
    · simp [Memory.write, h1]
    · by_cases h2 : i = a
      · simp [Memory.write, h2]
      · simp [Memory.write, h1, h2, ih]

/-- Reading after a sequence has been written. -/
theorem read?_writeAll (bs : List Byte) : ∀ (m : Memory) (k i : Nat),
    (m.writeAll k bs).read? i = if k ≤ i ∧ i < k + bs.length then bs[i - k]? else m.read? i := by
  induction bs with
  | nil => intro m k i; simp [Memory.writeAll]
  | cons b bs ih =>
    intro m k i
    simp only [Memory.writeAll, ih, read?_write, List.length_cons]
    by_cases h1 : k + 1 ≤ i ∧ i < k + 1 + bs.length
    · have h2 : k ≤ i ∧ i < k + (bs.length + 1) := by omega
      have h3 : i - k = (i - (k + 1)) + 1 := by omega
      rw [if_pos h1, if_pos h2, h3, List.getElem?_cons_succ]
    · by_cases h2 : k = i
      · subst h2
        simp
      · have h3 : ¬(k ≤ i ∧ i < k + (bs.length + 1)) := by omega
        rw [if_neg h1, if_neg h2, if_neg h3]

theorem read?_writeAll_inside (m : Memory) (bs : List Byte) {i : Nat} (h : i < bs.length) :
    (m.writeAll 0 bs).read? i = some bs[i] := by
  simp [read?_writeAll, h]

theorem read?_writeAll_outside (m : Memory) (bs : List Byte) {i : Nat} (h : bs.length ≤ i) :
    (m.writeAll 0 bs).read? i = m.read? i := by
  rw [read?_writeAll, if_neg (by omega)]

/-- A sequence written keeps the canonical form. -/
theorem writeAll_wf (bs : List Byte) : ∀ {m : Memory} (k : Nat), Memory.wf m → Memory.wf (m.writeAll k bs) := by
  induction bs with
  | nil => intro m k h; exact h
  | cons b bs ih => intro m k h; exact ih (k + 1) (write_wf k b h)

/-- A cell after a sequence has been written is one of the sequence's or an old one. -/
theorem mem_writeAll (bs : List Byte) : ∀ {m : Memory} {k : Nat} {c : Host.Cell}, c ∈ m.writeAll k bs →
    (k ≤ c.1 ∧ c.1 < k + bs.length) ∨ c ∈ m := by
  induction bs with
  | nil => intro m k c h; exact .inr h
  | cons b bs ih =>
    intro m k c h
    rcases ih h with ⟨h1, h2⟩ | h
    · left; simp only [List.length_cons]; omega
    · rcases mem_write h with rfl | h
      · left; simp
      · exact .inr h

end Sys2Proof.Machine
end

