-- ==== Sys2Proof/Laws/State.lean ====
section
/-! SUPPORT. What each update of the state leaves in each field, and what each value of `STATUS` says. -/

namespace Sys2Proof.Machine

@[simp] theorem acceptCommand_cmd (w : Word) (s : State) : (acceptCommand w s).cmd = w := rfl
@[simp] theorem acceptCommand_status (w : Word) (s : State) : (acceptCommand w s).status = .started := rfl
@[simp] theorem acceptCommand_ilen (w : Word) (s : State) : (acceptCommand w s).ilen = s.ilen := rfl
@[simp] theorem acceptCommand_olen (w : Word) (s : State) : (acceptCommand w s).olen = s.olen := rfl
@[simp] theorem acceptCommand_cap (w : Word) (s : State) : (acceptCommand w s).cap = s.cap := rfl
@[simp] theorem acceptCommand_ibuf (w : Word) (s : State) : (acceptCommand w s).ibuf = s.ibuf := rfl
@[simp] theorem acceptCommand_obuf (w : Word) (s : State) : (acceptCommand w s).obuf = s.obuf := rfl
@[simp] theorem acceptCommand_strictTailBits (w : Word) (s : State) : (acceptCommand w s).strictTailBits = s.strictTailBits := rfl
@[simp] theorem acceptCommand_schedule (w : Word) (s : State) : (acceptCommand w s).schedule = s.schedule := rfl
@[simp] theorem acceptCommand_port (w : Word) (s : State) : (acceptCommand w s).port = s.port := rfl
@[simp] theorem acceptCommand_draws (w : Word) (s : State) : (acceptCommand w s).draws = s.draws := rfl
@[simp] theorem acceptCommand_fills (w : Word) (s : State) : (acceptCommand w s).fills = s.fills := rfl

@[simp] theorem successCommit_cmd (out : List Byte) (s : State) : (successCommit out s).cmd = s.cmd := rfl
@[simp] theorem successCommit_status (out : List Byte) (s : State) : (successCommit out s).status = .succeeded := rfl
@[simp] theorem successCommit_ilen (out : List Byte) (s : State) : (successCommit out s).ilen = s.ilen := rfl
@[simp] theorem successCommit_olen (out : List Byte) (s : State) : (successCommit out s).olen = BitVec.ofNat 32 out.length := rfl
@[simp] theorem successCommit_cap (out : List Byte) (s : State) : (successCommit out s).cap = s.cap := rfl
@[simp] theorem successCommit_ibuf (out : List Byte) (s : State) : (successCommit out s).ibuf = s.ibuf := rfl
@[simp] theorem successCommit_obuf (out : List Byte) (s : State) : (successCommit out s).obuf = s.obuf.writeAll 0 out := rfl
@[simp] theorem successCommit_strictTailBits (out : List Byte) (s : State) : (successCommit out s).strictTailBits = s.strictTailBits := rfl
@[simp] theorem successCommit_schedule (out : List Byte) (s : State) : (successCommit out s).schedule = s.schedule := rfl
@[simp] theorem successCommit_port (out : List Byte) (s : State) : (successCommit out s).port = s.port := rfl
@[simp] theorem successCommit_draws (out : List Byte) (s : State) : (successCommit out s).draws = s.draws := rfl
@[simp] theorem successCommit_fills (out : List Byte) (s : State) : (successCommit out s).fills = s.fills := rfl

@[simp] theorem failureCommit_cmd (e : ErrorClass) (s : State) : (failureCommit e s).cmd = s.cmd := rfl
@[simp] theorem failureCommit_status (e : ErrorClass) (s : State) : (failureCommit e s).status = .failed e := rfl
@[simp] theorem failureCommit_ilen (e : ErrorClass) (s : State) : (failureCommit e s).ilen = s.ilen := rfl
@[simp] theorem failureCommit_olen (e : ErrorClass) (s : State) : (failureCommit e s).olen = 0 := rfl
@[simp] theorem failureCommit_cap (e : ErrorClass) (s : State) : (failureCommit e s).cap = s.cap := rfl
@[simp] theorem failureCommit_ibuf (e : ErrorClass) (s : State) : (failureCommit e s).ibuf = s.ibuf := rfl
@[simp] theorem failureCommit_obuf (e : ErrorClass) (s : State) : (failureCommit e s).obuf = s.obuf := rfl
@[simp] theorem failureCommit_strictTailBits (e : ErrorClass) (s : State) : (failureCommit e s).strictTailBits = s.strictTailBits := rfl
@[simp] theorem failureCommit_schedule (e : ErrorClass) (s : State) : (failureCommit e s).schedule = s.schedule := rfl
@[simp] theorem failureCommit_port (e : ErrorClass) (s : State) : (failureCommit e s).port = s.port := rfl
@[simp] theorem failureCommit_draws (e : ErrorClass) (s : State) : (failureCommit e s).draws = s.draws := rfl
@[simp] theorem failureCommit_fills (e : ErrorClass) (s : State) : (failureCommit e s).fills = s.fills := rfl

@[simp] theorem xferCommit_cmd (s : State) : (xferCommit s).cmd = s.cmd := rfl
@[simp] theorem xferCommit_status (s : State) : (xferCommit s).status = .succeeded := rfl
@[simp] theorem xferCommit_ilen (s : State) : (xferCommit s).ilen = s.olen := rfl
@[simp] theorem xferCommit_olen (s : State) : (xferCommit s).olen = s.olen := rfl
@[simp] theorem xferCommit_cap (s : State) : (xferCommit s).cap = s.cap := rfl
@[simp] theorem xferCommit_ibuf (s : State) : (xferCommit s).ibuf = s.ibuf.writeAll 0 s.result := rfl
@[simp] theorem xferCommit_obuf (s : State) : (xferCommit s).obuf = s.obuf := rfl
@[simp] theorem xferCommit_strictTailBits (s : State) : (xferCommit s).strictTailBits = s.strictTailBits := rfl
@[simp] theorem xferCommit_schedule (s : State) : (xferCommit s).schedule = s.schedule := rfl
@[simp] theorem xferCommit_port (s : State) : (xferCommit s).port = s.port := rfl
@[simp] theorem xferCommit_draws (s : State) : (xferCommit s).draws = s.draws := rfl
@[simp] theorem xferCommit_fills (s : State) : (xferCommit s).fills = s.fills := rfl

@[simp] theorem applyReset_cmd (s : State) : (applyReset s).cmd = 0 := rfl
@[simp] theorem applyReset_status (s : State) : (applyReset s).status = .idle := rfl
@[simp] theorem applyReset_ilen (s : State) : (applyReset s).ilen = 0 := rfl
@[simp] theorem applyReset_olen (s : State) : (applyReset s).olen = 0 := rfl
@[simp] theorem applyReset_cap (s : State) : (applyReset s).cap = s.cap := rfl
@[simp] theorem applyReset_ibuf (s : State) : (applyReset s).ibuf = [] := rfl
@[simp] theorem applyReset_obuf (s : State) : (applyReset s).obuf = [] := rfl
@[simp] theorem applyReset_strictTailBits (s : State) : (applyReset s).strictTailBits = s.strictTailBits := rfl
@[simp] theorem applyReset_schedule (s : State) : (applyReset s).schedule = s.schedule := rfl
@[simp] theorem applyReset_port (s : State) : (applyReset s).port = s.port := rfl
@[simp] theorem applyReset_draws (s : State) : (applyReset s).draws = s.draws := rfl
@[simp] theorem applyReset_fills (s : State) : (applyReset s).fills = s.fills + 1 := rfl

@[simp] theorem withSchedule_cmd (turns : List Turn) (s : State) : (s.withSchedule turns).cmd = s.cmd := rfl
@[simp] theorem withSchedule_status (turns : List Turn) (s : State) : (s.withSchedule turns).status = s.status := rfl
@[simp] theorem withSchedule_ilen (turns : List Turn) (s : State) : (s.withSchedule turns).ilen = s.ilen := rfl
@[simp] theorem withSchedule_olen (turns : List Turn) (s : State) : (s.withSchedule turns).olen = s.olen := rfl
@[simp] theorem withSchedule_cap (turns : List Turn) (s : State) : (s.withSchedule turns).cap = s.cap := rfl
@[simp] theorem withSchedule_ibuf (turns : List Turn) (s : State) : (s.withSchedule turns).ibuf = s.ibuf := rfl
@[simp] theorem withSchedule_obuf (turns : List Turn) (s : State) : (s.withSchedule turns).obuf = s.obuf := rfl
@[simp] theorem withSchedule_strictTailBits (turns : List Turn) (s : State) : (s.withSchedule turns).strictTailBits = s.strictTailBits := rfl
@[simp] theorem withSchedule_schedule (turns : List Turn) (s : State) : (s.withSchedule turns).schedule = turns := rfl
@[simp] theorem withSchedule_port (turns : List Turn) (s : State) : (s.withSchedule turns).port = s.port := rfl
@[simp] theorem withSchedule_draws (turns : List Turn) (s : State) : (s.withSchedule turns).draws = s.draws := rfl
@[simp] theorem withSchedule_fills (turns : List Turn) (s : State) : (s.withSchedule turns).fills = s.fills := rfl

@[simp] theorem answered_cmd (d : PortData) (drawn : Nat) (s : State) : (s.answered d drawn).cmd = s.cmd := rfl
@[simp] theorem answered_status (d : PortData) (drawn : Nat) (s : State) : (s.answered d drawn).status = s.status := rfl
@[simp] theorem answered_ilen (d : PortData) (drawn : Nat) (s : State) : (s.answered d drawn).ilen = s.ilen := rfl
@[simp] theorem answered_olen (d : PortData) (drawn : Nat) (s : State) : (s.answered d drawn).olen = s.olen := rfl
@[simp] theorem answered_cap (d : PortData) (drawn : Nat) (s : State) : (s.answered d drawn).cap = s.cap := rfl
@[simp] theorem answered_ibuf (d : PortData) (drawn : Nat) (s : State) : (s.answered d drawn).ibuf = s.ibuf := rfl
@[simp] theorem answered_obuf (d : PortData) (drawn : Nat) (s : State) : (s.answered d drawn).obuf = s.obuf := rfl
@[simp] theorem answered_strictTailBits (d : PortData) (drawn : Nat) (s : State) : (s.answered d drawn).strictTailBits = s.strictTailBits := rfl
@[simp] theorem answered_schedule (d : PortData) (drawn : Nat) (s : State) : (s.answered d drawn).schedule = s.schedule := rfl
@[simp] theorem answered_port (d : PortData) (drawn : Nat) (s : State) : (s.answered d drawn).port = d :: s.port := rfl
@[simp] theorem answered_draws (d : PortData) (drawn : Nat) (s : State) : (s.answered d drawn).draws = s.draws + drawn := rfl
@[simp] theorem answered_fills (d : PortData) (drawn : Nat) (s : State) : (s.answered d drawn).fills = s.fills := rfl

@[simp] theorem withIlen_cmd (w : Word) (s : State) : (s.withIlen w).cmd = s.cmd := rfl
@[simp] theorem withIlen_status (w : Word) (s : State) : (s.withIlen w).status = s.status := rfl
@[simp] theorem withIlen_ilen (w : Word) (s : State) : (s.withIlen w).ilen = w := rfl
@[simp] theorem withIlen_olen (w : Word) (s : State) : (s.withIlen w).olen = s.olen := rfl
@[simp] theorem withIlen_cap (w : Word) (s : State) : (s.withIlen w).cap = s.cap := rfl
@[simp] theorem withIlen_ibuf (w : Word) (s : State) : (s.withIlen w).ibuf = s.ibuf := rfl
@[simp] theorem withIlen_obuf (w : Word) (s : State) : (s.withIlen w).obuf = s.obuf := rfl
@[simp] theorem withIlen_strictTailBits (w : Word) (s : State) : (s.withIlen w).strictTailBits = s.strictTailBits := rfl
@[simp] theorem withIlen_schedule (w : Word) (s : State) : (s.withIlen w).schedule = s.schedule := rfl
@[simp] theorem withIlen_port (w : Word) (s : State) : (s.withIlen w).port = s.port := rfl
@[simp] theorem withIlen_draws (w : Word) (s : State) : (s.withIlen w).draws = s.draws := rfl
@[simp] theorem withIlen_fills (w : Word) (s : State) : (s.withIlen w).fills = s.fills := rfl

@[simp] theorem withIbufByte_cmd (i : Nat) (b : Byte) (s : State) : (s.withIbufByte i b).cmd = s.cmd := rfl
@[simp] theorem withIbufByte_status (i : Nat) (b : Byte) (s : State) : (s.withIbufByte i b).status = s.status := rfl
@[simp] theorem withIbufByte_ilen (i : Nat) (b : Byte) (s : State) : (s.withIbufByte i b).ilen = s.ilen := rfl
@[simp] theorem withIbufByte_olen (i : Nat) (b : Byte) (s : State) : (s.withIbufByte i b).olen = s.olen := rfl
@[simp] theorem withIbufByte_cap (i : Nat) (b : Byte) (s : State) : (s.withIbufByte i b).cap = s.cap := rfl
@[simp] theorem withIbufByte_ibuf (i : Nat) (b : Byte) (s : State) : (s.withIbufByte i b).ibuf = s.ibuf.write i b := rfl
@[simp] theorem withIbufByte_obuf (i : Nat) (b : Byte) (s : State) : (s.withIbufByte i b).obuf = s.obuf := rfl
@[simp] theorem withIbufByte_strictTailBits (i : Nat) (b : Byte) (s : State) : (s.withIbufByte i b).strictTailBits = s.strictTailBits := rfl
@[simp] theorem withIbufByte_schedule (i : Nat) (b : Byte) (s : State) : (s.withIbufByte i b).schedule = s.schedule := rfl
@[simp] theorem withIbufByte_port (i : Nat) (b : Byte) (s : State) : (s.withIbufByte i b).port = s.port := rfl
@[simp] theorem withIbufByte_draws (i : Nat) (b : Byte) (s : State) : (s.withIbufByte i b).draws = s.draws := rfl
@[simp] theorem withIbufByte_fills (i : Nat) (b : Byte) (s : State) : (s.withIbufByte i b).fills = s.fills := rfl

@[simp] theorem withSchedule_withSchedule (a b : List Turn) (s : State) :
    (s.withSchedule a).withSchedule b = s.withSchedule b := rfl
theorem withSchedule_self (s : State) : s.withSchedule s.schedule = s := rfl
@[simp] theorem withSchedule_answered (a : List Turn) (d : PortData) (k : Nat) (s : State) :
    (s.answered d k).withSchedule a = (s.withSchedule a).answered d k := rfl
@[simp] theorem withSchedule_withIlen (a : List Turn) (w : Word) (s : State) :
    (s.withIlen w).withSchedule a = (s.withSchedule a).withIlen w := rfl
@[simp] theorem withSchedule_withIbufByte (a : List Turn) (i : Nat) (b : Byte) (s : State) :
    (s.withIbufByte i b).withSchedule a = (s.withSchedule a).withIbufByte i b := rfl

@[simp] theorem status_idle_busy : Status.idle.busy = false := rfl
@[simp] theorem status_idle_done : Status.idle.done = false := rfl
@[simp] theorem status_idle_err : Status.idle.err = false := rfl
@[simp] theorem status_idle_ecode : Status.idle.ecode = 0 := rfl
@[simp] theorem status_started_busy : Status.started.busy = true := rfl
@[simp] theorem status_started_done : Status.started.done = false := rfl
@[simp] theorem status_started_err : Status.started.err = false := rfl
@[simp] theorem status_started_ecode : Status.started.ecode = 0 := rfl
@[simp] theorem status_succeeded_busy : Status.succeeded.busy = false := rfl
@[simp] theorem status_succeeded_done : Status.succeeded.done = true := rfl
@[simp] theorem status_succeeded_err : Status.succeeded.err = false := rfl
@[simp] theorem status_succeeded_ecode : Status.succeeded.ecode = 0 := rfl
@[simp] theorem status_failed_busy (e : ErrorClass) : (Status.failed e).busy = false := rfl
@[simp] theorem status_failed_done (e : ErrorClass) : (Status.failed e).done = true := rfl
@[simp] theorem status_failed_err (e : ErrorClass) : (Status.failed e).err = true := rfl
@[simp] theorem status_failed_ecode (e : ErrorClass) : (Status.failed e).ecode = e.code := rfl

@[simp] theorem inCap_acceptCommand (w : Word) (s : State) : (acceptCommand w s).inCap = s.inCap := rfl
@[simp] theorem inCap_successCommit (out : List Byte) (s : State) : (successCommit out s).inCap = s.inCap := rfl
@[simp] theorem inCap_failureCommit (e : ErrorClass) (s : State) : (failureCommit e s).inCap = s.inCap := rfl
@[simp] theorem inCap_xferCommit (s : State) : (xferCommit s).inCap = s.inCap := rfl
@[simp] theorem inCap_applyReset (s : State) : (applyReset s).inCap = s.inCap := rfl
@[simp] theorem inCap_withSchedule (turns : List Turn) (s : State) : (s.withSchedule turns).inCap = s.inCap := rfl
@[simp] theorem inCap_answered (d : PortData) (drawn : Nat) (s : State) : (s.answered d drawn).inCap = s.inCap := rfl
@[simp] theorem inCap_withIlen (w : Word) (s : State) : (s.withIlen w).inCap = s.inCap := rfl
@[simp] theorem inCap_withIbufByte (i : Nat) (b : Byte) (s : State) : (s.withIbufByte i b).inCap = s.inCap := rfl

/-- The code of an error class is never 0 and never above 3 (10_state.md R18). -/
theorem code_mem (e : ErrorClass) : e.code = 1 ∨ e.code = 2 ∨ e.code = 3 := by
  cases e <;> simp [ErrorClass.code]

/-- The code of an error class determines it. -/
theorem code_injective {e f : ErrorClass} (h : e.code = f.code) : e = f := by
  cases e <;> cases f <;> simp_all [ErrorClass.code]

theorem failed_injective {e f : ErrorClass} (h : Status.failed e = Status.failed f) : e = f :=
  code_injective (congrArg Status.ecode h)

theorem succeeded_ne_failed (e : ErrorClass) : Status.succeeded ≠ Status.failed e := by
  intro h; cases congrArg Status.err h

/-- After reset the `CAP` register holds the parameter exactly: it fits 32 bits (00_scope.md R7). -/
theorem reset_inCap : State.reset.inCap = Config.inCap := by
  have h := Config.inCapLessOne.isLt
  simp only [State.inCap, State.reset, Config.inCap, BitVec.toNat_ofNat]
  omega

end Sys2Proof.Machine
end

