-- ==== Sys2Proof/Laws/Operands.lean ====
section
/-! SUPPORT. The implicit operands, the commits seen through them, and what `convert` can answer. -/

namespace Sys2Proof.Machine

@[simp] theorem input_length (s : State) : s.input.length = s.ilen.toNat := by simp [State.input]

@[simp] theorem result_length (s : State) : s.result.length = s.olen.toNat := by simp [State.result]

theorem input_getElem (s : State) (i : Nat) (h : i < s.input.length) : s.input[i] = s.ibufByte i := by
  simp [State.input]

theorem result_getElem (s : State) (i : Nat) (h : i < s.result.length) : s.result[i] = s.obufByte i := by
  simp [State.result]

/-- The operand depends on `ILEN` and the bytes below it alone (00_scope.md R3). -/
theorem input_congr {s t : State} (hn : t.ilen = s.ilen) (hb : ∀ i < s.ilen.toNat, t.ibufByte i = s.ibufByte i) :
    t.input = s.input := by
  apply List.ext_getElem
  · simp [hn]
  · intro i h1 h2
    rw [input_getElem, input_getElem]
    exact hb i (by simpa using h2)

theorem result_congr {s t : State} (hn : t.olen = s.olen) (hb : ∀ i < s.olen.toNat, t.obufByte i = s.obufByte i) :
    t.result = s.result := by
  apply List.ext_getElem
  · simp [hn]
  · intro i h1 h2
    rw [result_getElem, result_getElem]
    exact hb i (by simpa using h2)

@[simp] theorem ibufByte_acceptCommand (w : Word) (s : State) (i : Nat) :
    (acceptCommand w s).ibufByte i = s.ibufByte i := rfl
@[simp] theorem ibufByte_successCommit (out : List Byte) (s : State) (i : Nat) :
    (successCommit out s).ibufByte i = s.ibufByte i := rfl
@[simp] theorem ibufByte_failureCommit (e : ErrorClass) (s : State) (i : Nat) :
    (failureCommit e s).ibufByte i = s.ibufByte i := rfl
@[simp] theorem obufByte_acceptCommand (w : Word) (s : State) (i : Nat) :
    (acceptCommand w s).obufByte i = s.obufByte i := rfl
@[simp] theorem obufByte_failureCommit (e : ErrorClass) (s : State) (i : Nat) :
    (failureCommit e s).obufByte i = s.obufByte i := rfl
@[simp] theorem obufByte_xferCommit (s : State) (i : Nat) : (xferCommit s).obufByte i = s.obufByte i := rfl
@[simp] theorem input_acceptCommand (w : Word) (s : State) : (acceptCommand w s).input = s.input := rfl
@[simp] theorem result_acceptCommand (w : Word) (s : State) : (acceptCommand w s).result = s.result := rfl

@[simp] theorem ibufByte_withSchedule (turns : List Turn) (s : State) (k : Nat) : (s.withSchedule turns).ibufByte k = s.ibufByte k := rfl
@[simp] theorem obufByte_withSchedule (turns : List Turn) (s : State) (k : Nat) : (s.withSchedule turns).obufByte k = s.obufByte k := rfl
@[simp] theorem obufView_withSchedule (turns : List Turn) (s : State) (k : Nat) : (s.withSchedule turns).obufView k = s.obufView k := rfl
@[simp] theorem ibufByte_answered (d : PortData) (drawn : Nat) (s : State) (k : Nat) : (s.answered d drawn).ibufByte k = s.ibufByte k := rfl
@[simp] theorem obufByte_answered (d : PortData) (drawn : Nat) (s : State) (k : Nat) : (s.answered d drawn).obufByte k = s.obufByte k := rfl
@[simp] theorem obufView_answered (d : PortData) (drawn : Nat) (s : State) (k : Nat) : (s.answered d drawn).obufView k = s.obufView k := rfl
@[simp] theorem ibufByte_withIlen (w : Word) (s : State) (k : Nat) : (s.withIlen w).ibufByte k = s.ibufByte k := rfl
@[simp] theorem obufByte_withIlen (w : Word) (s : State) (k : Nat) : (s.withIlen w).obufByte k = s.obufByte k := rfl
@[simp] theorem obufView_withIlen (w : Word) (s : State) (k : Nat) : (s.withIlen w).obufView k = s.obufView k := rfl
@[simp] theorem obufByte_withIbufByte (i : Nat) (b : Byte) (s : State) (k : Nat) : (s.withIbufByte i b).obufByte k = s.obufByte k := rfl
@[simp] theorem obufView_withIbufByte (i : Nat) (b : Byte) (s : State) (k : Nat) : (s.withIbufByte i b).obufView k = s.obufView k := rfl

/-- `IBUF` after a byte has been written (10_state.md R23). -/
theorem ibufByte_withIbufByte (i : Nat) (b : Byte) (s : State) (k : Nat) :
    (s.withIbufByte i b).ibufByte k = if i = k then b else s.ibufByte k := by
  simp only [State.ibufByte, withIbufByte_ibuf, withIbufByte_fills, read?_write]
  split <;> rfl

/-- After a failure no byte of `OBUF` can be read (60_exceptions.md R146). -/
@[simp] theorem obufView_failureCommit (e : ErrorClass) (s : State) (i : Nat) :
    (failureCommit e s).obufView i = 0 := by simp [State.obufView]

/-- The success commit stores the result from index 0 (10_state.md R32). -/
theorem obufByte_successCommit_inside (out : List Byte) (s : State) {i : Nat} (h : i < out.length) :
    (successCommit out s).obufByte i = out[i] := by
  simp [State.obufByte, read?_writeAll_inside _ _ h]

theorem obufByte_successCommit_outside (out : List Byte) (s : State) {i : Nat} (h : out.length ≤ i) :
    (successCommit out s).obufByte i = s.obufByte i := by
  simp [State.obufByte, read?_writeAll_outside _ _ h]

/-- The result of a success commit is the sequence committed, when its length fits `OLEN`. -/
theorem result_successCommit (out : List Byte) (s : State) (h : out.length < 2 ^ 32) :
    (successCommit out s).result = out := by
  have hl : (successCommit out s).olen.toNat = out.length := by
    simp only [successCommit_olen, BitVec.toNat_ofNat]; omega
  apply List.ext_getElem
  · simp only [result_length, hl]
  · intro i h1 h2
    rw [result_getElem, obufByte_successCommit_inside out s h2]

theorem ibufByte_xferCommit_inside (s : State) {i : Nat} (h : i < s.olen.toNat) :
    (xferCommit s).ibufByte i = s.obufByte i := by
  simp [State.ibufByte, read?_writeAll_inside _ s.result (by simpa using h), result_getElem]

theorem ibufByte_xferCommit_outside (s : State) {i : Nat} (h : s.olen.toNat ≤ i) :
    (xferCommit s).ibufByte i = s.ibufByte i := by
  simp [State.ibufByte, read?_writeAll_outside _ s.result (by simpa using h)]

/-- A length that does not fit the buffer (60_exceptions.md R142). -/
theorem convert_tooLong (f : List Byte → Conversion) {s : State} (h : s.inCap < s.ilen.toNat) :
    convert f s = .next (failureCommit .invalidArgument s) := by simp [convert, h]

/-- A pseudocode that ends with a result (10_state.md R32). -/
theorem convert_out {f : List Byte → Conversion} {s : State} {out : List Byte} (h : s.ilen.toNat ≤ s.inCap)
    (hf : f s.input = .out out) : convert f s = .next (successCommit out s) := by
  simp [convert, Nat.not_lt.2 h, hf]

/-- A pseudocode that raises (60_exceptions.md R146). -/
theorem convert_raise {f : List Byte → Conversion} {s : State} {e : ErrorClass} (h : s.ilen.toNat ≤ s.inCap)
    (hf : f s.input = .raise e) : convert f s = .next (failureCommit e s) := by
  simp [convert, Nat.not_lt.2 h, hf]

/-- Everything a conversion command can answer. -/
theorem convert_cases (f : List Byte → Conversion) (s : State) :
    (s.inCap < s.ilen.toNat ∧ convert f s = .next (failureCommit .invalidArgument s)) ∨
    (s.ilen.toNat ≤ s.inCap ∧ ∃ out, f s.input = .out out ∧ convert f s = .next (successCommit out s)) ∨
    (s.ilen.toNat ≤ s.inCap ∧ ∃ e, f s.input = .raise e ∧ convert f s = .next (failureCommit e s)) := by
  rcases Nat.lt_or_ge s.inCap s.ilen.toNat with h | h
  · exact .inl ⟨h, convert_tooLong f h⟩
  · cases hf : f s.input with
    | out out => exact .inr (.inl ⟨h, out, rfl, convert_out h hf⟩)
    | raise e => exact .inr (.inr ⟨h, e, rfl, convert_raise h hf⟩)

/-- Everything `XFER` can answer (43_buffer.md R131). -/
theorem execXfer_cases (s : State) :
    (s.inCap < s.olen.toNat ∧ execXfer s = .next (failureCommit .invalidArgument s)) ∨
    (s.olen.toNat ≤ s.inCap ∧ execXfer s = .next (xferCommit s)) := by
  rcases Nat.lt_or_ge s.inCap s.olen.toNat with h | h
  · exact .inl ⟨h, by simp [execXfer, h]⟩
  · exact .inr ⟨h, by simp [execXfer, Nat.not_lt.2 h]⟩

end Sys2Proof.Machine
end

