-- ==== Sys2Proof/Laws/Exec.lean ====
section
/-! SUPPORT. Everything a command can answer, said once. -/

namespace Sys2Proof.Machine

/-- A conversion command is `convert` on its pseudocode. -/
theorem exec_eq_convert {i : Instr} {s : State} {f : List Byte → Conversion}
    (hi : pseudocode s.strictTailBits i = some f) : exec i s = convert f s := by
  cases i <;> simp only [pseudocode, Option.some.injEq, reduceCtorEq] at hi <;> subst hi <;> rfl

theorem pseudocode_isSome {strict : Bool} {i : Instr} (hi : i ≠ .xfer) : ∃ f, pseudocode strict i = some f := by
  cases i <;> simp_all [pseudocode]

/-- Everything a command can answer: a length that does not fit, a result, bad input, or the transfer. -/
theorem exec_cases (i : Instr) (s : State) :
    (i ≠ .xfer ∧ s.inCap < s.ilen.toNat ∧ exec i s = .next (failureCommit .invalidArgument s)) ∨
    (i ≠ .xfer ∧ s.ilen.toNat ≤ s.inCap ∧ ∃ f out, pseudocode s.strictTailBits i = some f ∧ f s.input = .out out ∧
      out.length ≤ 2 * s.ilen.toNat + 2 ∧ exec i s = .next (successCommit out s)) ∨
    (i ≠ .xfer ∧ s.ilen.toNat ≤ s.inCap ∧ ∃ f, pseudocode s.strictTailBits i = some f ∧
      f s.input = .raise .invalidEncoding ∧ exec i s = .next (failureCommit .invalidEncoding s)) ∨
    (i = .xfer ∧ s.inCap < s.olen.toNat ∧ exec i s = .next (failureCommit .invalidArgument s)) ∨
    (i = .xfer ∧ s.olen.toNat ≤ s.inCap ∧ exec i s = .next (xferCommit s)) := by
  by_cases hx : i = .xfer
  · subst hx
    rcases execXfer_cases s with h | h
    · exact .inr (.inr (.inr (.inl ⟨rfl, h⟩)))
    · exact .inr (.inr (.inr (.inr ⟨rfl, h⟩)))
  · obtain ⟨f, hf⟩ := pseudocode_isSome (strict := s.strictTailBits) hx
    rw [exec_eq_convert hf]
    rcases convert_cases f s with ⟨h, hc⟩ | ⟨h, out, ho, hc⟩ | ⟨h, e, he, hc⟩
    · exact .inl ⟨hx, h, hc⟩
    · have := pseudocode_length hf ho
      exact .inr (.inl ⟨hx, h, f, out, hf, ho, by simpa using this, hc⟩)
    · cases pseudocode_raises hf he
      exact .inr (.inr (.inl ⟨hx, h, f, hf, he, hc⟩))

/-- The engine's step is one of the three commits (10_state.md R31). -/
theorem completeCommand_cases (s : State) :
    (∃ e, completeCommand s = .next (failureCommit e s)) ∨
    (∃ out, s.ilen.toNat ≤ s.inCap ∧ out.length ≤ 2 * s.ilen.toNat + 2 ∧
      completeCommand s = .next (successCommit out s)) ∨
    (s.olen.toNat ≤ s.inCap ∧ completeCommand s = .next (xferCommit s)) := by
  unfold completeCommand
  split
  · rename_i i _
    rcases exec_cases i s with ⟨-, -, h⟩ | ⟨-, h1, _, out, -, -, h2, h⟩ | ⟨-, -, _, -, -, h⟩ | ⟨-, -, h⟩ | ⟨-, h1, h⟩
    · exact .inl ⟨_, h⟩
    · exact .inr (.inl ⟨out, h1, h2, h⟩)
    · exact .inl ⟨_, h⟩
    · exact .inl ⟨_, h⟩
    · exact .inr (.inr ⟨h1, h⟩)
  · exact .inl ⟨_, rfl⟩

end Sys2Proof.Machine
end

