-- ==== Sys2Proof/Laws/Step.lean ====
section
/-! SUPPORT. What the engine's turn, a host access and a step can answer, said once each. -/

namespace Sys2Proof.Machine

/-- The engine has a step only while `BUSY` = 1 (10_state.md R31). -/
theorem engineTurn_busy {s : State} (h : s.status.busy = true) : engineTurn s = completeCommand s := by
  simp [engineTurn, h]

theorem engineTurn_idle {s : State} (h : s.status.busy = false) : engineTurn s = .next s := by
  simp [engineTurn, h]

/-- A host access is taken or refused (20_memory.md R41, R47). -/
theorem hostAccess_cases (a : Access) (s : State) :
    (∃ op, resolve s.inCap a = some op ∧ hostAccess a s = .next (hostOp op s)) ∨
    (resolve s.inCap a = none ∧ hostAccess a s = .refused .accessWithoutMeaning) := by
  cases h : resolve s.inCap a with
  | none => exact .inr ⟨rfl, by simp [hostAccess, h]⟩
  | some op => exact .inl ⟨op, rfl, by simp [hostAccess, h]⟩

/-- Everything a host step can leave of a state: a read's answer, a command accepted, a length or a byte stored, or
nothing changed. -/
theorem hostOp_cases (op : HostOp) (s : State) :
    (∃ d k, hostOp op s = s.answered d k) ∨
    (s.status.busy = false ∧ ∃ w, op = .writeReg .cmd w ∧ hostOp op s = acceptCommand w s) ∨
    (s.status.busy = false ∧ ∃ w, op = .writeReg .ilen w ∧ hostOp op s = s.withIlen w) ∨
    (s.status.busy = false ∧ ∃ i b, op = .writeByte (.ibuf i) b ∧ hostOp op s = s.withIbufByte i b) ∨
    hostOp op s = s := by
  cases op with
  | readReg r => exact .inl ⟨_, _, rfl⟩
  | readByte p => exact .inl ⟨_, _, rfl⟩
  | writeReg r w =>
    cases hb : s.status.busy with
    | true => right; right; right; right; cases r <;> simp [hostOp, writeRegister, hb]
    | false =>
      cases r with
      | cmd => exact .inr (.inl ⟨rfl, w, rfl, by simp [hostOp, writeRegister, hb]⟩)
      | ilen => exact .inr (.inr (.inl ⟨rfl, w, rfl, by simp [hostOp, writeRegister, hb]⟩))
      | status => exact .inr (.inr (.inr (.inr rfl)))
      | olen => exact .inr (.inr (.inr (.inr rfl)))
      | cap => exact .inr (.inr (.inr (.inr rfl)))
  | writeByte p b =>
    cases p with
    | obuf i => exact .inr (.inr (.inr (.inr rfl)))
    | ibuf i =>
      cases hb : s.status.busy with
      | true => right; right; right; right; simp [hostOp, writeBufferByte, hb]
      | false => exact .inr (.inr (.inr (.inl ⟨rfl, i, b, rfl, by simp [hostOp, writeBufferByte, hb]⟩)))

/-- A byte access inside `IBUF` lies below its capacity (20_memory.md R42). -/
theorem byteAt_ibuf {n : Nat} {off : Offset} {i : Nat} (h : byteAt n off = some (.ibuf i)) : i < n := by
  unfold byteAt at h
  split at h
  · simp only [Option.some.injEq, BufferByte.ibuf.injEq] at h; omega
  · split at h <;> simp at h

theorem resolve_writeByte_ibuf {n : Nat} {a : Access} {i : Nat} {b : Byte}
    (h : resolve n a = some (.writeByte (.ibuf i) b)) : i < n := by
  cases a with
  | read off w => cases w <;> simp [resolve] at h
  | write off d =>
    cases d with
    | byte c =>
      simp only [resolve, Option.map_eq_some_iff] at h
      obtain ⟨p, hp, hq⟩ := h
      cases hq
      exact byteAt_ibuf hp
    | half c => simp [resolve] at h
    | word c => simp [resolve] at h

/-- The four shapes of a step, by whose turn it is. -/
theorem step_cases (s : State) :
    (s.schedule = [] ∧ step s = engineTurn s) ∨
    (∃ rest, s.schedule = .engine :: rest ∧ step s = engineTurn (s.withSchedule rest)) ∨
    (∃ a rest, s.schedule = .host a :: rest ∧ step s = hostAccess a (s.withSchedule rest)) ∨
    (∃ rest, s.schedule = .reset :: rest ∧ step s = .next (applyReset (s.withSchedule rest))) := by
  cases h : s.schedule with
  | nil => exact .inl ⟨rfl, by simp [step, h]⟩
  | cons t rest =>
    cases t with
    | host a => exact .inr (.inr (.inl ⟨a, rest, rfl, by simp [step, h]⟩))
    | engine => exact .inr (.inl ⟨rest, rfl, by simp [step, h]⟩)
    | reset => exact .inr (.inr (.inr ⟨rest, rfl, by simp [step, h]⟩))

/-- What a step is at each head of the schedule. -/
theorem step_of_nil {s : State} (h : s.schedule = []) : step s = engineTurn s := by simp [step, h]

theorem step_of_engine {s : State} {rest : List Turn} (h : s.schedule = .engine :: rest) :
    step s = engineTurn (s.withSchedule rest) := by simp [step, h]

theorem step_of_host {s : State} {a : Access} {rest : List Turn} (h : s.schedule = .host a :: rest) :
    step s = hostAccess a (s.withSchedule rest) := by simp [step, h]

theorem step_of_reset {s : State} {rest : List Turn} (h : s.schedule = .reset :: rest) :
    step s = .next (applyReset (s.withSchedule rest)) := by simp [step, h]

end Sys2Proof.Machine
end

