-- ==== Sys2Proof/Laws/HostPort.lean ====
section
/-! SUPPORT. The address map at each listed offset (20_memory.md R42), and the steps of the host there (R41). -/

namespace Sys2Proof.Machine

theorem toNat_ibufOffset {i : Nat} (h : i < 0x10000) : (BitVec.ofNat 18 (0x10000 + i)).toNat = 0x10000 + i := by
  rw [BitVec.toNat_ofNat]; omega

theorem toNat_obufOffset {i : Nat} (h : i < 0x20000) : (BitVec.ofNat 18 (0x20000 + i)).toNat = 0x20000 + i := by
  rw [BitVec.toNat_ofNat]; omega

/-- `IBUF[i]` stands at 0x10000 + i. -/
theorem byteAt_ibufOffset {n i : Nat} (hn : n ≤ 65535) (hi : i < n) :
    byteAt n (BitVec.ofNat 18 (0x10000 + i)) = some (.ibuf i) := by
  have h := toNat_ibufOffset (i := i) (by omega)
  unfold byteAt
  rw [h, if_pos (by omega), Nat.add_sub_cancel_left]

/-- `OBUF[i]` stands at 0x20000 + i. -/
theorem byteAt_obufOffset {n i : Nat} (hn : n ≤ 65535) (hi : i < 2 * n + 2) :
    byteAt n (BitVec.ofNat 18 (0x20000 + i)) = some (.obuf i) := by
  have h := toNat_obufOffset (i := i) (by omega)
  unfold byteAt
  rw [h, if_neg (by omega), if_pos (by omega), Nat.add_sub_cancel_left]

/-- Each register stands at its offset. -/
@[simp] theorem regAt_regOffset (r : Reg) : regAt (regOffset r) = some r := by cases r <;> rfl

/-- An offset names a register only if it is one of the five. -/
theorem regAt_eq_some {off : Offset} {r : Reg} (h : regAt off = some r) : off = regOffset r := by
  unfold regAt at h
  repeat' split at h
  all_goals simp at h
  all_goals subst h
  all_goals assumption

/-- An access has a meaning exactly when it is of a listed form (20_memory.md R41, R47). -/
theorem resolve_isSome_iff (n : Nat) (a : Access) : (resolve n a).isSome = true ↔ listedAccess n a := by
  have hreg : ∀ off : Offset, (regAt off).isSome = true ↔ off ∈ ([0x00, 0x04, 0x08, 0x0C, 0x10] : List Offset) := by
    intro off
    unfold regAt
    repeat' split
    all_goals simp_all
  have hbyte : ∀ off : Offset, (byteAt n off).isSome = true ↔
      (0x10000 ≤ off.toNat ∧ off.toNat < 0x10000 + n) ∨
      (0x20000 ≤ off.toNat ∧ off.toNat < 0x20000 + (2 * n + 2)) := by
    intro off
    unfold byteAt
    repeat' split
    all_goals simp_all
  cases a with
  | read off w => cases w <;> simp [resolve, listedAccess, hreg, hbyte]
  | write off d => cases d <;> simp [resolve, listedAccess, hreg, hbyte]

/-- A host turn whose access means `op` (20_memory.md R41). -/
theorem step_hostOp {s : State} {a : Access} {rest : List Turn} {op : HostOp} (hs : s.schedule = .host a :: rest)
    (h : resolve s.inCap a = some op) : step s = .next (hostOp op (s.withSchedule rest)) := by
  rw [step_of_host hs]
  simp [hostAccess, h]

/-- What a host access that was answered did: one of the forms of `hostOp_cases`, on the state with the turn taken. -/
theorem step_host_inv {s t : State} {a : Access} {rest : List Turn} (hs : s.schedule = .host a :: rest)
    (h : step s = .next t) :
    ∃ op, resolve s.inCap a = some op ∧ t = hostOp op (s.withSchedule rest) := by
  rw [step_of_host hs] at h
  rcases hostAccess_cases a (s.withSchedule rest) with ⟨op, hop, hc⟩ | ⟨-, hc⟩
  · rw [hc] at h
    exact ⟨op, hop, by injection h with h; exact h.symm⟩
  · rw [hc] at h; cases h

/-- A `CMD` write is a word write at offset 0x00. -/
theorem resolve_writeCmd {n : Nat} {a : Access} {w : Word} (h : resolve n a = some (.writeReg .cmd w)) :
    a = .write 0x00 (.word w) := by
  cases a with
  | read off x => cases x <;> simp [resolve] at h
  | write off d =>
    cases d with
    | byte c => simp [resolve] at h
    | half c => simp [resolve] at h
    | word c =>
      simp only [resolve, Option.map_eq_some_iff, HostOp.writeReg.injEq] at h
      obtain ⟨r, hr, rfl, rfl⟩ := h
      rw [regAt_eq_some hr]; rfl

/-- An `ILEN` write is a word write at offset 0x08. -/
theorem resolve_writeIlen {n : Nat} {a : Access} {w : Word} (h : resolve n a = some (.writeReg .ilen w)) :
    a = .write 0x08 (.word w) := by
  cases a with
  | read off x => cases x <;> simp [resolve] at h
  | write off d =>
    cases d with
    | byte c => simp [resolve] at h
    | half c => simp [resolve] at h
    | word c =>
      simp only [resolve, Option.map_eq_some_iff, HostOp.writeReg.injEq] at h
      obtain ⟨r, hr, rfl, rfl⟩ := h
      rw [regAt_eq_some hr]; rfl

/-- `step` keeps the parameters, whoever has the turn (10_state.md R36 (e)). -/
theorem step_parameters {s t : State} (h : step s = .next t) : t.cap = s.cap ∧ t.strictTailBits = s.strictTailBits := by
  have hengine : ∀ u : State, engineTurn u = .next t → t.cap = u.cap ∧ t.strictTailBits = u.strictTailBits := by
    intro u hu
    cases hb : u.status.busy with
    | false => rw [engineTurn_idle hb] at hu; cases hu; exact ⟨rfl, rfl⟩
    | true =>
      rw [engineTurn_busy hb] at hu
      rcases completeCommand_cases u with ⟨e, hc⟩ | ⟨out, -, -, hc⟩ | ⟨-, hc⟩ <;> rw [hc] at hu <;> cases hu <;>
        exact ⟨rfl, rfl⟩
  rcases step_cases s with ⟨-, hc⟩ | ⟨rest, -, hc⟩ | ⟨a, rest, hs, -⟩ | ⟨rest, -, hc⟩
  · exact hengine s (hc ▸ h)
  · exact hengine (s.withSchedule rest) (hc ▸ h)
  · obtain ⟨op, -, rfl⟩ := step_host_inv hs h
    rcases hostOp_cases op (s.withSchedule rest) with ⟨_, _, hc⟩ | ⟨-, _, -, hc⟩ | ⟨-, _, -, hc⟩ |
      ⟨-, _, _, -, hc⟩ | hc <;> rw [hc] <;> exact ⟨rfl, rfl⟩
  · rw [hc] at h; cases h; exact ⟨rfl, rfl⟩

end Sys2Proof.Machine
end

