-- ==== Sys2Proof/Laws/PerInstr.lean ====
section
/-! SUPPORT. The facts about each command as syntax, one lemma per constructor of `Instr`. -/

namespace Sys2Proof.Laws.Encoding

/-- The word of a command is well formed and decodes to the command (30_encoding.md R60, R62). -/
def Statement (i : Instr) : Prop :=
  i.wellFormed = true ∧ wordWellFormed (encode i) = true ∧ rsvField (encode i) = 0 ∧ decode (encode i) = .command i ∧
    decodeTableWord 32 (encode i).toNat = some i

theorem b2h : Statement .b2h := by unfold Statement; decide
theorem h2b : Statement .h2b := by unfold Statement; decide
theorem b64e : Statement .b64e := by unfold Statement; decide
theorem b64d : Statement .b64d := by unfold Statement; decide
theorem h2b64 : Statement .h2b64 := by unfold Statement; decide
theorem b642h : Statement .b642h := by unfold Statement; decide
theorem b2url : Statement .b2url := by unfold Statement; decide
theorem url2b : Statement .url2b := by unfold Statement; decide
theorem b2ext : Statement .b2ext := by unfold Statement; decide
theorem ext2b : Statement .ext2b := by unfold Statement; decide
theorem xfer : Statement .xfer := by unfold Statement; decide

end Sys2Proof.Laws.Encoding
end

