-- ==== Sys2Proof/Laws/Tables.lean ====
section
/-! SUPPORT. The tables and their inverses (10_state.md R24 to R28). -/

namespace Sys2Proof.Machine

/-- Every sextet is found at its own position in `STD`. -/
theorem stdInv_std : ∀ v : Sextet, stdInv (std v) = some v := by decide

/-- Every sextet is found at its own position in `EXT`. -/
theorem extInv_ext : ∀ v : Sextet, extInv (ext v) = some v := by decide

/-- Both digits of a byte are read back. -/
theorem hexInv_hexd : ∀ v : Nibble, hexInv (hexd v) = some v := by decide

theorem std_injective {u v : Sextet} (h : std u = std v) : u = v :=
  Option.some.inj (by rw [← stdInv_std u, ← stdInv_std v, h])

theorem ext_injective {u v : Sextet} (h : ext u = ext v) : u = v :=
  Option.some.inj (by rw [← extInv_ext u, ← extInv_ext v, h])

/-- A position found in a table holds the code, and lies inside the table. -/
theorem positionFrom_sound (c : Byte) : ∀ (t : List Byte) (k n : Nat), positionFrom c t k = some n →
    k ≤ n ∧ n - k < t.length ∧ t.getD (n - k) 0 = c := by
  intro t
  induction t with
  | nil => intro k n h; simp [positionFrom] at h
  | cons x xs ih =>
    intro k n h
    simp only [positionFrom] at h
    split at h
    · cases h; simp_all
    · obtain ⟨h1, h2, h3⟩ := ih (k + 1) n h
      have h4 : n - k = (n - (k + 1)) + 1 := by omega
      refine ⟨by omega, by simp only [List.length_cons]; omega, ?_⟩
      rw [h4, List.getD_cons_succ, h3]

/-- A character with a sextet is that sextet's character (R27). -/
theorem std_of_stdInv {c : Byte} {v : Sextet} (h : stdInv c = some v) : std v = c := by
  obtain ⟨n, hn, rfl⟩ := Option.map_eq_some_iff.1 h
  obtain ⟨-, h2, h3⟩ := positionFrom_sound c stdTable 0 n hn
  have h4 : n < 64 := h2
  simpa [std, Nat.mod_eq_of_lt h4] using h3

theorem ext_of_extInv {c : Byte} {v : Sextet} (h : extInv c = some v) : ext v = c := by
  obtain ⟨n, hn, rfl⟩ := Option.map_eq_some_iff.1 h
  obtain ⟨-, h2, h3⟩ := positionFrom_sound c extTable 0 n hn
  have h4 : n < 64 := h2
  simpa [ext, Nat.mod_eq_of_lt h4] using h3

/-- `=` is in neither alphabet (R27). -/
@[simp] theorem stdInv_padChar : stdInv padChar = none := by decide

@[simp] theorem extInv_padChar : extInv padChar = none := by decide

theorem std_ne_padChar (v : Sextet) : std v ≠ padChar := by
  intro h
  have := stdInv_std v
  simp [h] at this

theorem ext_ne_padChar (v : Sextet) : ext v ≠ padChar := by
  intro h
  have := extInv_ext v
  simp [h] at this

/-- `EXT` rises strictly in character code (R25). -/
theorem ext_lt_ext : ∀ u v : Sextet, u < v → ext u < ext v := by decide

end Sys2Proof.Machine
end

