-- ==== Sys2Proof/Tests/Slice0.lean ====
section
/-! SUPPORT. Tests: the checks of well-formedness, the words of the opcode map, the vectors of 95_test_vectors.md (every
expected value is from there unless a comment says otherwise), and a witness for the hypotheses of each statement. -/

namespace Sys2Proof.Tests

open Sys2Proof Sys2Proof.Machine

/-! ### Well-formedness and decoding -/

theorem test_wellFormed_refuses_reserved_field : rsvZero 0x00000103 = false ∧ wordWellFormed 0x00000103 = false := by
  decide
theorem test_wellFormed_refuses_opcode_zero : opcAssigned 0x00000000 = false ∧ wordWellFormed 0x00000000 = false := by
  decide
theorem test_wellFormed_refuses_opcode_above : opcAssigned 0x0000000C = false ∧ wordWellFormed 0x0000000C = false := by
  decide
theorem test_wellFormed_accepts_last : wordWellFormed 0x0000000B = true := by decide

/-- Words written bit by bit from spec/opcode_table.json, column `encoding`. -/
theorem test_decode_hex :
    decodeTableWord 32 0b00000000000000000000000000000001 = some .b2h ∧
    decodeTableWord 32 0b00000000000000000000000000000010 = some .h2b := by decide
theorem test_decode_base64 :
    decodeTableWord 32 0b00000000000000000000000000000011 = some .b64e ∧
    decodeTableWord 32 0b00000000000000000000000000000100 = some .b64d ∧
    decodeTableWord 32 0b00000000000000000000000000000101 = some .h2b64 ∧
    decodeTableWord 32 0b00000000000000000000000000000110 = some .b642h := by decide
theorem test_decode_variants :
    decodeTableWord 32 0b00000000000000000000000000000111 = some .b2url ∧
    decodeTableWord 32 0b00000000000000000000000000001000 = some .url2b ∧
    decodeTableWord 32 0b00000000000000000000000000001001 = some .b2ext ∧
    decodeTableWord 32 0b00000000000000000000000000001010 = some .ext2b := by decide
theorem test_decode_buffer : decodeTableWord 32 0b00000000000000000000000000001011 = some .xfer := by decide
/-- 95 section 2.5. -/
theorem test_decode_illegal :
    decode 0x00000000 = .illegal .unknownOpcode ∧ decode 0x0000000C = .illegal .unknownOpcode ∧
    decode 0x000000FF = .illegal .unknownOpcode ∧ decode 0x00000103 = .illegal .reservedNotZero ∧
    decode 0x80000003 = .illegal .reservedNotZero ∧ decode 0xFFFFFF01 = .illegal .reservedNotZero := by decide

/-! ### The tables (42_variants.md R115, some rows) -/

theorem test_std_rows : std 0 = 0x41 ∧ std 19 = 0x54 ∧ std 26 = 0x61 ∧ std 46 = 0x75 ∧ std 52 = 0x30 ∧ std 62 = 0x2B ∧
    std 63 = 0x2F := by decide
theorem test_ext_rows : ext 0 = 0x2D ∧ ext 1 = 0x30 ∧ ext 11 = 0x41 ∧ ext 36 = 0x5A ∧ ext 37 = 0x5F ∧ ext 38 = 0x61 ∧
    ext 63 = 0x7A := by decide
/-- 40_hex.md, the characters just outside each range of digits (95 section 2.1). -/
theorem test_hexInv_edges : hexInv 0x30 = some 0 ∧ hexInv 0x39 = some 9 ∧ hexInv 0x46 = some 15 ∧ hexInv 0x66 = some 15 ∧
    hexInv 0x2F = none ∧ hexInv 0x3A = none ∧ hexInv 0x40 = none ∧ hexInv 0x47 = none ∧ hexInv 0x60 = none ∧
    hexInv 0x67 = none := by decide

/-! ### One step of each command -/

/-- An idle block of capacity 64 that holds an input. -/
def loaded (strict : Bool) (bs : List Byte) : State :=
  { State.reset with
    cap := 64, strictTailBits := strict, ilen := BitVec.ofNat 32 bs.length, ibuf := Memory.writeAll [] 0 bs }

/-- An idle block of capacity 64 that holds a result. -/
def holding (out : List Byte) : State :=
  { State.reset with
    cap := 64, strictTailBits := false, status := .succeeded, olen := BitVec.ofNat 32 out.length,
    obuf := Memory.writeAll [] 0 out }

/-- `STATUS` and the result after the engine has completed the command. -/
def report (i : Instr) (s : State) : Option (Word × List Byte) :=
  match exec i s with
  | .next t => some (statusWord t.status, t.result)
  | .fault _ => none
  | .refused _ => none

/-- E1. -/
theorem test_b2h_source_example :
    report .b2h (loaded true [0x00, 0xFF, 0x10]) = some (0x2, [0x30, 0x30, 0x66, 0x66, 0x31, 0x30]) := by decide
theorem test_b2h_too_long :
    report .b2h { loaded true [] with ilen := 65 } = some (0x206, []) := by decide
/-- `"DEADbeef"`. -/
theorem test_h2b_mixed_case :
    report .h2b (loaded true [0x44, 0x45, 0x41, 0x44, 0x62, 0x65, 0x65, 0x66]) = some (0x2, [0xDE, 0xAD, 0xBE, 0xEF]) := by
  decide
/-- `"1234 "`: two good pairs first, still nothing delivered. -/
theorem test_h2b_odd : report .h2b (loaded true [0x31, 0x32, 0x33, 0x34, 0x20]) = some (0x106, []) := by decide
/-- E4, `"TWE="`. -/
theorem test_b64e_two_byte_remainder :
    report .b64e (loaded true [0x4D, 0x61]) = some (0x2, [0x54, 0x57, 0x45, 0x3D]) := by decide
/-- `"Zm9vYg=="`. -/
theorem test_b64e_one_byte_remainder :
    report .b64e (loaded true [0x66, 0x6F, 0x6F, 0x62]) =
      some (0x2, [0x5A, 0x6D, 0x39, 0x76, 0x59, 0x67, 0x3D, 0x3D]) := by decide
/-- `"TR=="`: the two values of `STRICT_TAIL_BITS`. -/
theorem test_b64d_tail_bits :
    report .b64d (loaded false [0x54, 0x52, 0x3D, 0x3D]) = some (0x2, [0x4D]) ∧
    report .b64d (loaded true [0x54, 0x52, 0x3D, 0x3D]) = some (0x106, []) := by decide
/-- `"TQ==TWFu"`: padding in a quantum that is not the last. -/
theorem test_b64d_padding_inside :
    report .b64d (loaded false [0x54, 0x51, 0x3D, 0x3D, 0x54, 0x57, 0x46, 0x75]) = some (0x106, []) := by decide
/-- `"4d616e"` to `"TWFu"`. -/
theorem test_h2b64 :
    report .h2b64 (loaded true [0x34, 0x64, 0x36, 0x31, 0x36, 0x65]) = some (0x2, [0x54, 0x57, 0x46, 0x75]) := by decide
/-- `"AP8Q"` to `"00ff10"`. -/
theorem test_b642h :
    report .b642h (loaded true [0x41, 0x50, 0x38, 0x51]) = some (0x2, [0x30, 0x30, 0x66, 0x66, 0x31, 0x30]) := by decide
/-- E5. -/
theorem test_b2url_source_example :
    report .b2url (loaded true [0x61, 0x62, 0x2B, 0x63, 0x2F, 0x64, 0x65, 0x3D]) =
      some (0x2, [0x61, 0x62, 0x2D, 0x63, 0x5F, 0x64, 0x65]) := by decide
/-- Bytes outside every alphabet are copied. -/
theorem test_b2url_copies : report .b2url (loaded true [0x00, 0xFF, 0x2B]) = some (0x2, [0x00, 0xFF, 0x2D]) := by decide
/-- `"-_"` to `"+/=="`. -/
theorem test_url2b : report .url2b (loaded true [0x2D, 0x5F]) = some (0x2, [0x2B, 0x2F, 0x3D, 0x3D]) := by decide
/-- E7. -/
theorem test_url2b_remainder_one : report .url2b (loaded true [0x61]) = some (0x106, []) := by decide
/-- `"=T=W=F=u="` to `"IL4i"`. -/
theorem test_b2ext_strips :
    report .b2ext (loaded true [0x3D, 0x54, 0x3D, 0x57, 0x3D, 0x46, 0x3D, 0x75, 0x3D]) =
      some (0x2, [0x49, 0x4C, 0x34, 0x69]) := by decide
/-- `"TW-u"`. -/
theorem test_b2ext_outside : report .b2ext (loaded true [0x54, 0x57, 0x2D, 0x75]) = some (0x106, []) := by decide
/-- `"-_"` to `"Al=="`. -/
theorem test_ext2b : report .ext2b (loaded true [0x2D, 0x5F]) = some (0x2, [0x41, 0x6C, 0x3D, 0x3D]) := by decide
/-- `"IF=="`. -/
theorem test_ext2b_outside : report .ext2b (loaded true [0x49, 0x46, 0x3D, 0x3D]) = some (0x106, []) := by decide
/-- 95 section 2.4, second row: byte 4 of `IBUF` is kept. -/
theorem test_xfer_copies :
    (match exec .xfer { holding [0x54, 0x51, 0x3D, 0x3D] with
        ilen := 5, ibuf := Memory.writeAll [] 0 [0xAA, 0xBB, 0xCC, 0xDD, 0xEE] } with
      | .next t => t.ilen == 4 && (List.range 5).map t.ibufByte == [0x54, 0x51, 0x3D, 0x3D, 0xEE] && t.olen == 4
      | _ => false) = true := by decide
/-- 95 section 2.4: `OLEN` above `IN_CAP`. -/
theorem test_xfer_too_long :
    report .xfer { holding [] with olen := 65 } = some (0x206, []) := by decide

/-! ### The host port and the lifecycle -/

/-- 95 section 2.7: a write to `ILEN` while `BUSY` = 1. -/
theorem test_write_while_busy :
    (match step { loaded true [0x4D] with
        status := .started, schedule := [.host (.write 0x08 (.word 7))] } with
      | .next t => t.ilen == 1 | _ => false) = true := by decide
/-- 20_memory.md R47: a byte access in register space. -/
theorem test_byte_read_of_register_refused :
    (match step { loaded true [] with schedule := [.host (.read 0x00 .byte)] } with
      | .refused .accessWithoutMeaning => true | _ => false) = true := by decide
/-- 10_state.md R29: `OBUF[4]` reads 0 with `OLEN` = 4, at offset 0x20004. -/
theorem test_obuf_above_olen_reads_zero :
    (match step { holding [0x54, 0x51, 0x3D, 0x3D] with
        schedule := [.host (.read 0x20004 .byte)] } with
      | .next t => t.port == [.byte 0x00] | _ => false) = true := by decide
/-- The first step of a fetched word, from reset: the empty input (70_reset_and_hazards.md R164). -/
theorem test_first_command_after_reset :
    (match step (State.reset.withFetchWord 32 3) with
      | .next t => statusWord t.status == 0x2 && t.olen == 0 | _ => false) = true := by decide
/-- 95 program P3: the host's digits for t = 1370563200000. -/
theorem test_hexGeneratedId :
    hexGeneratedId 1370563200000 =
      some [0x34, 0x66, 0x63, 0x36, 0x66, 0x62, 0x62, 0x31, 0x30, 0x30, 0x30, 0x30, 0x30, 0x30, 0x30, 0x30, 0x30, 0x30] := by
  decide

/-! ### Witnesses: for each statement with hypotheses, a state and operands that meet them together, at the edges of each
clause -/

/-- A block that is running the word `w` on an input. -/
def running (w : Word) (bs : List Byte) (turns : List Turn) : State :=
  { loaded true bs with cmd := w, status := .started, schedule := turns }

/-- An idle block whose input fills its input buffer: `ILEN` = `IN_CAP`. -/
def fitting (strict : Bool) (bs : List Byte) : State := { loaded strict bs with cap := BitVec.ofNat 32 bs.length }

/-- An idle block with turns to come. -/
def waiting (bs : List Byte) (turns : List Turn) : State := { loaded true bs with schedule := turns }

theorem witness_DecodeAnswersExactlyTheEncodedWord :
    Instr.b64e.wellFormed = true ∧ rsvField 0x00000103 ≠ 0 ∧ (rsvField 0x00000000 = 0 ∧ opcField 0x00000000 = 0) ∧
    (rsvField 0x0000000C = 0 ∧ 0x0C ≤ (opcField 0x0000000C).toNat) := by decide

theorem witness_IllegalWordCompletesWithIllegalCommand (w : Word) (h : w = 0x00000000 ∨ w = 0x0000000C ∨ w = 0x00000103) :
    (waiting [0x4D] [.host (.write 0x00000 (.word w)), .engine]).status.busy = false ∧ (∀ i, w ≠ encode i) ∧
    (waiting [0x4D] [.host (.write 0x00000 (.word w)), .engine]).schedule = .host (.write 0x00000 (.word w)) :: .engine :: [] := by
  refine ⟨rfl, fun i => ?_, rfl⟩
  rcases h with rfl | rfl | rfl <;> cases i <;> decide

theorem witness_StepRunsTheDecodedCommand :
    ((running 0x3 [0x4D] []).status.busy = true ∧ decode (running 0x3 [0x4D] []).cmd = .command .b64e ∧
      (running 0x3 [0x4D] []).schedule = []) ∧
    (running 0x3 [0x4D] [.engine]).schedule = .engine :: [] ∧
    (decode (running 0xC [0x4D] [.engine]).cmd = .illegal .unknownOpcode ∧
      (running 0xC [0x4D] [.engine]).status.busy = true) ∧
    (decode (running 0x103 [0x4D] []).cmd = .illegal .reservedNotZero ∧
      (running 0x103 [0x4D] []).status.busy = true ∧ (running 0x103 [0x4D] []).schedule = []) := by decide

theorem witness_CommandStart :
    ((waiting [0x4D] [.host (.write 0x00000 (.word 3))]).status.busy = false ∧
      (waiting [0x4D] [.host (.write 0x00000 (.word 3))]).schedule = [.host (.write 0x00000 (.word 3))]) ∧
    ((running 0x3 [0x4D] [.host (.write 0x08 (.word 7))]).status.busy = true ∧
      ∃ t, step (running 0x3 [0x4D] [.host (.write 0x08 (.word 7))]) = .next t) :=
  ⟨⟨rfl, rfl⟩, rfl, _, rfl⟩

/-- The first and last bytes of both buffers, and a register. -/
theorem witness_WritesIgnored :
    (running 0x3 [] []).status.busy = true ∧ listedAccess (running 0x3 [] []).inCap (.write 0x00 (.word 3)) ∧
    listedAccess (running 0x3 [] []).inCap (.write 0x10000 (.byte 7)) ∧
    listedAccess (running 0x3 [] []).inCap (.write 0x1003F (.byte 7)) ∧ (running 0x3 [] []).capInRange ∧
    0 < (running 0x3 [] []).outCap ∧ 129 < (running 0x3 [] []).outCap := by
  refine ⟨rfl, ?_, ?_, ?_, by decide, by decide, by decide⟩ <;> simp [listedAccess, running, loaded, State.inCap]

theorem inv_running (turns : List Turn) : Inv (running 0x3 [0x4D] turns) where
  capRange := by show 1 ≤ (64 : Nat) ∧ (64 : Nat) ≤ 65535; omega
  busyNotDone := by simp [running]
  errReported := by simp [running]
  noErrNoCode := by simp [running]
  olenFits := by show (0 : Nat) ≤ 130; omega
  ibufWf := by show Memory.wf [(0, 0x4D)]; decide
  obufWf := List.Pairwise.nil
  ibufInside := by show ∀ c ∈ [((0 : Nat), (0x4D : Byte))], c.1 < 64; decide
  obufInside := by intro c h; cases h
  resultWritten := by intro i h; exact absurd h (Nat.not_lt_zero i)

theorem witness_ReadsWhileBusy :
    Inv (running 0x3 [0x4D] [.host (.read 0x04 .word)]) ∧ (running 0x3 [0x4D] []).status.busy = true ∧
    0 < (running 0x3 [0x4D] []).inCap ∧ 63 < (running 0x3 [0x4D] []).inCap ∧ 129 < (running 0x3 [0x4D] []).outCap :=
  ⟨inv_running _, by decide⟩

theorem witness_HostPrimitivesWhileIdle :
    (waiting [0x4D] [.host (.read 0x1003F .byte)]).capInRange ∧
    (waiting [0x4D] [.host (.read 0x1003F .byte)]).status.busy = false ∧
    (63 < (waiting [0x4D] []).inCap ∧ (0x1003F : Offset) = BitVec.ofNat 18 (0x10000 + 63)) ∧
    (129 < (waiting [0x4D] []).outCap ∧ (0x20081 : Offset) = BitVec.ofNat 18 (0x20000 + 129)) := by decide

/-- The last byte of `IBUF` is listed, the next one is not; both sides of the statement occur. -/
theorem witness_OtherAccessesAreRefused :
    (waiting [] [.host (.read 0x1003F .byte)]).schedule = [.host (.read 0x1003F .byte)] ∧
    listedAccess (waiting [] []).inCap (.read 0x1003F .byte) ∧
    ¬listedAccess (waiting [] []).inCap (.read 0x10040 .byte) ∧
    ¬listedAccess (waiting [] []).inCap (.read 0x02 .word) ∧ ¬listedAccess (waiting [] []).inCap (.read 0x00 .half) := by
  refine ⟨rfl, ?_, ?_, ?_, ?_⟩ <;> simp [listedAccess, waiting, loaded, State.inCap]

theorem witness_ReadsHaveNoSideEffect :
    (∃ t, step (waiting [0x4D] [.host (.read 0x10000 .byte)]) = .next t) ∧
    (∃ t, runTurnsOf 2 (waiting [0x4D] [.host (.read 0x10000 .byte), .host (.read 0x10000 .byte)]) = .next t) ∧
    (∃ t, runTurnsOf 2 (waiting [0x4D] [.host (.write 0x08 (.word 5)), .host (.write 0x08 (.word 5))]) = .next t) :=
  ⟨⟨_, rfl⟩, ⟨_, rfl⟩, ⟨_, rfl⟩⟩

theorem witness_EngineStepAlwaysCompletes :
    ((running 0x3 [0x4D] [.engine]).status.busy = true ∧ (running 0x3 [0x4D] [.engine]).schedule = .engine :: []) ∧
    ((running 0x3 [0x4D] []).status.busy = true ∧ (running 0x3 [0x4D] []).schedule = []) ∧
    ((waiting [] [.engine]).status.busy = false ∧ (waiting [] [.engine]).schedule = .engine :: []) ∧
    ((waiting [] []).status.busy = false ∧ (waiting [] []).schedule = []) := by decide

theorem witness_LegalScheduleEndsIdle :
    State.scheduleLegal (running 0x3 [0x4D] [.host (.read 0x04 .word), .host (.read 0x04 .word)]) := by
  intro a h
  have h' : a = .read 0x04 .word := by simpa [running] using h
  subst h'
  decide

theorem witness_OnlyStartSetsBusyOnlyEngineOrResetClearsIt :
    (∃ t, step (waiting [] [.host (.write 0x00 (.word 3))]) = .next t ∧ t.status.busy = true) ∧
    (∃ t, step (running 0x3 [] [.engine]) = .next t ∧ t.status.busy = false) ∧
    (∃ t, step (running 0x3 [] [.reset]) = .next t ∧ t.status.busy = false) ∧
    (∃ t, step (running 0x3 [] [.host (.write 0x08 (.word 5))]) = .next t ∧ t.status.busy = true) :=
  ⟨⟨_, rfl, rfl⟩, ⟨_, rfl, rfl⟩, ⟨_, rfl, rfl⟩, ⟨_, rfl, rfl⟩⟩

/-- A length written, a byte written, a transfer, and a completion that changes `OLEN`. -/
theorem witness_OnlyTheseEventsChangeOperands :
    (∃ t, step (waiting [] [.host (.write 0x08 (.word 5))]) = .next t ∧ t.ilen ≠ (waiting [] []).ilen) ∧
    (∃ t, step (waiting [0x4D] [.host (.write 0x10000 (.byte 7))]) = .next t ∧ t.ibufByte 0 ≠ (waiting [0x4D] []).ibufByte 0) ∧
    (∃ t, step { running 0xB [] [.engine] with olen := 1, obuf := [(0, 0x4D)] } = .next t ∧ t.ilen ≠ 0) ∧
    (∃ t, step (running 0x3 [0x4D] [.engine]) = .next t ∧ t.olen ≠ 0) ∧
    (∀ rest, (running 0x3 [0x4D] [.engine]).schedule ≠ .reset :: rest) :=
  ⟨⟨_, rfl, by decide⟩, ⟨_, rfl, by decide⟩, ⟨_, rfl, by decide⟩, ⟨_, rfl, by decide⟩, by intro rest h; cases h⟩

theorem witness_ReportAndResultPersist :
    (holding [0x54]).status.busy = false ∧
    (∃ t, step { holding [0x54] with schedule := [.host (.read 0x20000 .byte)] } = .next t) ∧
    (∀ w rest, ([.host (.read 0x20000 .byte)] : List Turn) ≠ .host (.write 0x00 (.word w)) :: rest) ∧
    (∀ rest, ([.host (.read 0x20000 .byte)] : List Turn) ≠ .reset :: rest) :=
  ⟨rfl, ⟨_, rfl⟩, (by intro w rest h; cases h), (by intro rest h; cases h)⟩

/-- At the largest length, `ILEN` = `IN_CAP`, and at length 0. -/
theorem witness_SuccessCommit :
    (fitting true [0x4D]).capInRange ∧ (fitting true [0x4D]).ilen.toNat = (fitting true [0x4D]).inCap ∧
    (∃ f, pseudocode true .b64e = some f ∧ f (fitting true [0x4D]).input = .out [0x54, 0x51, 0x3D, 0x3D]) ∧
    (∃ f, pseudocode true .h2b = some f ∧ f (loaded true []).input = .out []) :=
  ⟨by decide, by decide, ⟨_, rfl, by decide⟩, ⟨_, rfl, by decide⟩⟩

/-- Each class of failure occurs. -/
theorem witness_FailureCommit :
    (∃ t, completeCommand (running 0xC [] []) = .next t ∧ t.status = .failed .illegalCommand) ∧
    (∃ t, completeCommand { running 0x1 [] [] with ilen := 65 } = .next t ∧ t.status = .failed .invalidArgument) ∧
    (∃ t, completeCommand (running 0x2 [0x30] []) = .next t ∧ t.status = .failed .invalidEncoding ∧ t.status.err = true) :=
  ⟨⟨_, rfl, rfl⟩, ⟨_, rfl, rfl⟩, ⟨_, rfl, rfl, rfl⟩⟩

/-- The first lengths that do not fit, and an invalid input at `ILEN` = `IN_CAP`. -/
theorem witness_ErrorPriority :
    (∀ i, (running 0xC [] []).cmd ≠ encode i) ∧
    ({ running 0x2 [] [] with ilen := 65 }.cmd = encode .h2b ∧ { running 0x2 [] [] with ilen := 65 }.inCap < 65) ∧
    ({ running 0xB [] [] with olen := 65 }.cmd = encode .xfer ∧ { running 0xB [] [] with olen := 65 }.inCap < 65) ∧
    ({ fitting true [0x30] with cmd := 2 }.cmd = encode .h2b ∧
      { fitting true [0x30] with cmd := 2 }.ilen.toNat = { fitting true [0x30] with cmd := 2 }.inCap ∧
      invalidInput true .h2b { fitting true [0x30] with cmd := 2 }.input = true) ∧
    (∃ t, completeCommand { fitting true [0x30] with cmd := 2 } = .next t ∧ t.status = .failed .invalidEncoding) :=
  ⟨by intro i; cases i <;> decide, ⟨rfl, by decide⟩, ⟨rfl, by decide⟩, by decide, ⟨_, rfl, rfl⟩⟩

/-- Both sides of the statement, at `ILEN` = `IN_CAP` + 1 and `ILEN` = `IN_CAP`. -/
theorem witness_InvalidArgumentExactly :
    (∃ t, completeCommand { running 0x7 [] [] with ilen := 65 } = .next t ∧ t.status = .failed .invalidArgument) ∧
    (∃ t, completeCommand { fitting true [0x4D] with cmd := 7 } = .next t ∧ t.status ≠ .failed .invalidArgument) ∧
    (∃ t, completeCommand { running 0xB [] [] with ilen := 65 } = .next t ∧ t.status ≠ .failed .invalidArgument) ∧
    (∃ t, completeCommand { running 0xB [] [] with olen := 65 } = .next t ∧ t.status = .failed .invalidArgument) :=
  ⟨⟨_, rfl, rfl⟩, ⟨_, rfl, by decide⟩, ⟨_, rfl, by decide⟩, ⟨_, rfl, rfl⟩⟩

theorem witness_IllegalCommandExactly :
    (∃ t, completeCommand (running 0x103 [] []) = .next t ∧ t.status = .failed .illegalCommand) ∧
    (∃ t, completeCommand (running 0xB [] []) = .next t ∧ t.status ≠ .failed .illegalCommand) :=
  ⟨⟨_, rfl, rfl⟩, ⟨_, rfl, by decide⟩⟩

/-- For each row of R141 an input that raises the class; and inputs that do not. -/
theorem witness_InvalidEncodingExactly :
    invalidInput true .h2b [0x30] = true ∧ invalidInput true .h2b64 [0x34, 0x67] = true ∧
    invalidInput true .b64d [0x54, 0x51, 0x3D] = true ∧ invalidInput true .b642h [0x54, 0x52, 0x3D, 0x3D] = true ∧
    invalidInput false .b642h [0x54, 0x52, 0x3D, 0x3D] = false ∧ invalidInput true .url2b [0x61] = true ∧
    invalidInput true .b2ext [0x54, 0x2D] = true ∧ invalidInput true .ext2b [0x49] = true ∧
    invalidInput true .b2ext [0x3D] = false ∧ (∃ t, exec .h2b (fitting true [0x30]) = .next t) :=
  ⟨by decide, by decide, by decide, by decide, by decide, by decide, by decide, by decide, by decide, ⟨_, rfl⟩⟩

/-- Two states that differ above `ILEN`, and two that differ above `OLEN`. -/
theorem witness_CommandsArePure :
    (∀ k < (running 0x3 [0x4D] []).ilen.toNat, (running 0x3 [0x4D] []).ibufByte k =
      { running 0x3 [0x4D] [] with ibuf := [(0, 0x4D), (1, 0x61)] }.ibufByte k) ∧
    (running 0x3 [0x4D] []).cmd ≠ encode .xfer ∧ (running 0xB [] []).cmd = encode .xfer ∧
    (∀ k < { holding [0x54] with obuf := [(0, 0x54), (1, 0x51)] }.olen.toNat,
      { holding [0x54] with obuf := [(0, 0x54), (1, 0x51)] }.obufByte k = (holding [0x54]).obufByte k) := by decide

theorem witness_InputLifetime :
    (∃ t, exec .b64e (loaded true [0x4D]) = .next t) ∧
    (∃ t, exec .xfer { holding [] with olen := 65 } = .next t ∧ t.status.err = true) ∧
    (∃ t, exec .xfer (holding [0x54]) = .next t ∧ t.status.err = false) :=
  ⟨⟨_, rfl⟩, ⟨_, rfl, rfl⟩, ⟨_, rfl, rfl⟩⟩

/-- 95 section 2.6, `IN_CAP` = 1: the bound is met with equality. -/
theorem witness_ResultLengthsFit :
    { loaded true [0x4D] with cap := 1 }.capInRange ∧
    ∃ t, exec .b64e { loaded true [0x4D] with cap := 1 } = .next t ∧ t.status.err = false ∧
      t.olen.toNat = { loaded true [0x4D] with cap := 1 }.outCap :=
  ⟨by decide, _, rfl, rfl, by decide⟩

/-- The first length that does not fit: the last clause of each command's statement. -/
def tooLong : State := { loaded true [] with ilen := 65 }

/-- An input of the largest length, `ILEN` = `IN_CAP`. -/
abbrev fills (s : State) : Prop := s.capInRange ∧ s.ilen.toNat = s.inCap

/-- An input of length 0. -/
abbrev empty (s : State) : Prop := s.capInRange ∧ s.ilen.toNat = 0

/-! For each command: an input of length 0, inputs of the largest length in every clause, and the first length that does
not fit. -/

theorem witness_B2hWritesTwoDigitsPerByte :
    empty (loaded true []) ∧
    fills (fitting true [0xFF]) ∧
    tooLong.capInRange ∧ tooLong.inCap < tooLong.ilen.toNat := by decide

theorem witness_H2bReadsDigitPairs :
    (empty (loaded true []) ∧ isHexString (loaded true []).input = true) ∧
    (fills (fitting true [0x66, 0x46]) ∧ isHexString (fitting true [0x66, 0x46]).input = true) ∧
    (fills (fitting true [0x30]) ∧ isHexString (fitting true [0x30]).input = false) ∧
    (fills (fitting true [0x30, 0x67]) ∧ isHexString (fitting true [0x30, 0x67]).input = false) ∧
    tooLong.capInRange ∧ tooLong.inCap < tooLong.ilen.toNat := by decide

theorem witness_B64eWritesSextetsAndPadding :
    empty (loaded true []) ∧
    fills (fitting true [0x4D]) ∧
    fills (fitting true [0x4D, 0x61]) ∧
    fills (fitting true [0x4D, 0x61, 0x6E]) ∧
    tooLong.capInRange ∧ tooLong.inCap < tooLong.ilen.toNat := by decide

theorem witness_B64dReadsQuanta :
    (empty (loaded true []) ∧ acceptedBase64 true (loaded true []).input = true) ∧
    (fills (fitting true [0x54, 0x51, 0x3D, 0x3D]) ∧ acceptedBase64 true (fitting true [0x54, 0x51, 0x3D, 0x3D]).input = true) ∧
    (fills (fitting false [0x54, 0x52, 0x3D, 0x3D]) ∧ acceptedBase64 false (fitting false [0x54, 0x52, 0x3D, 0x3D]).input = true) ∧
    (fills (fitting true [0x54, 0x52, 0x3D, 0x3D]) ∧ acceptedBase64 true (fitting true [0x54, 0x52, 0x3D, 0x3D]).input = false) ∧
    tooLong.capInRange ∧ tooLong.inCap < tooLong.ilen.toNat := by decide

theorem witness_H2b64Composes :
    (empty (loaded true []) ∧ isHexString (loaded true []).input = true) ∧
    (fills (fitting true [0x34, 0x44]) ∧ isHexString (fitting true [0x34, 0x44]).input = true) ∧
    (fills (fitting true [0x34, 0x64, 0x36]) ∧ isHexString (fitting true [0x34, 0x64, 0x36]).input = false) ∧
    tooLong.capInRange ∧ tooLong.inCap < tooLong.ilen.toNat := by decide

theorem witness_B642hComposes :
    (empty (loaded true []) ∧ acceptedBase64 true (loaded true []).input = true) ∧
    (fills (fitting true [0x54, 0x57, 0x45, 0x3D]) ∧ acceptedBase64 true (fitting true [0x54, 0x57, 0x45, 0x3D]).input = true) ∧
    (fills (fitting true [0x54, 0x57, 0x46]) ∧ acceptedBase64 true (fitting true [0x54, 0x57, 0x46]).input = false) ∧
    tooLong.capInRange ∧ tooLong.inCap < tooLong.ilen.toNat := by decide

theorem witness_B2urlSubstitutesAndStrips :
    empty (loaded true []) ∧
    fills (fitting true [0x2B, 0x2F, 0x3D]) ∧
    tooLong.capInRange ∧ tooLong.inCap < tooLong.ilen.toNat := by decide

theorem witness_Url2bSubstitutesAndRepads :
    (empty (loaded true []) ∧ isBase64Url (loaded true []).input = true) ∧
    (fills (fitting true [0x2D, 0x5F]) ∧ isBase64Url (fitting true [0x2D, 0x5F]).input = true) ∧
    (fills (fitting true [0x61]) ∧ isBase64Url (fitting true [0x61]).input = false) ∧
    (fills (fitting true [0x61, 0x2B]) ∧ isBase64Url (fitting true [0x61, 0x2B]).input = false) ∧
    tooLong.capInRange ∧ tooLong.inCap < tooLong.ilen.toNat := by decide

theorem witness_B2extStripsAndPermutes :
    (empty (loaded true []) ∧ isStdOrPad (loaded true []).input = true) ∧
    (fills (fitting true [0x54, 0x51, 0x3D, 0x3D]) ∧ isStdOrPad (fitting true [0x54, 0x51, 0x3D, 0x3D]).input = true) ∧
    (fills (fitting true [0x54, 0x2D]) ∧ isStdOrPad (fitting true [0x54, 0x2D]).input = false) ∧
    tooLong.capInRange ∧ tooLong.inCap < tooLong.ilen.toNat := by decide

theorem witness_Ext2bPermutesAndRepads :
    (empty (loaded true []) ∧ isBase64Ext (loaded true []).input = true) ∧
    (fills (fitting true [0x2D, 0x5F]) ∧ isBase64Ext (fitting true [0x2D, 0x5F]).input = true) ∧
    (fills (fitting true [0x49]) ∧ isBase64Ext (fitting true [0x49]).input = false) ∧
    (fills (fitting true [0x49, 0x2B]) ∧ isBase64Ext (fitting true [0x49, 0x2B]).input = false) ∧
    tooLong.capInRange ∧ tooLong.inCap < tooLong.ilen.toNat := by decide

/-- A result of length `IN_CAP`, of length 0, and the first length that does not fit. -/
theorem witness_XferCopiesTheResult :
    { holding [0x54] with cap := 1 }.olen.toNat = { holding [0x54] with cap := 1 }.inCap ∧ (holding []).olen.toNat ≤ (holding []).inCap ∧
    { holding [] with olen := 65 }.inCap < { holding [] with olen := 65 }.olen.toNat := by decide

theorem witness_XferEqualsTheHostsCopy :
    (holding [0x54]).capInRange ∧ (holding [0x54]).status.busy = false ∧
    (holding [0x54]).olen.toNat ≤ (holding [0x54]).inCap ∧
    { holding [0x54] with schedule := (handCopy 1 (holding [0x54]).obufByte).map .host }.schedule =
      (handCopy (holding [0x54]).olen.toNat (holding [0x54]).obufByte).map .host :=
  ⟨by decide, rfl, by decide, rfl⟩

theorem witness_HexRoundTrip :
    isHexString [0x44, 0x65] = true ∧ (loaded true [0xDE]).capInRange ∧
    2 * (loaded true [0xDE]).ilen.toNat ≤ (loaded true [0xDE]).inCap := by decide

theorem witness_Base64RoundTrip :
    base64ToBytes true [0x54, 0x51, 0x3D, 0x3D] = .out [0x4D] ∧
    (base64ToBytes false [0x54, 0x51, 0x3D, 0x3D] = .out [0x4D] ∧ isCanonicalBase64 [0x54, 0x51, 0x3D, 0x3D] = true) ∧
    4 * (((loaded true [0x4D]).ilen.toNat + 2) / 3) ≤ (loaded true [0x4D]).inCap := by decide

/-- Both branches: a first half that fails, and one that goes on. -/
theorem witness_FusedCommandsEqualChains :
    (loaded true [0x34]).capInRange ∧ (∃ u, runCommand .h2b (loaded true [0x34]) = .next u ∧ u.status.err = true) ∧
    (∃ u, runCommand .h2b (loaded true [0x34, 0x44]) = .next u ∧ u.status.err = false) :=
  ⟨by decide, ⟨_, rfl, rfl⟩, ⟨_, rfl, rfl⟩⟩

theorem witness_VariantRoundTrips :
    isBase64 [0x54, 0x52, 0x3D, 0x3D] = true ∧ isBase64Url [0x2D, 0x5F] = true ∧ isBase64Ext [0x49, 0x46] = true := by
  decide

theorem witness_ExtImagesKeepTheOrder :
    lexLess [0x00] [0x00, 0x00] ∧ ([0x00, 0xFF] : List Byte).length = ([0x01, 0x00] : List Byte).length :=
  ⟨.cons .nil, rfl⟩

theorem witness_InverseLookups : (0x80 ≤ (0x80 : Byte).toNat) ∧ ((0x20 : Byte).toNat ≤ 0x20) ∧ ((0x7F : Byte).toNat = 0x7F) := by
  decide

theorem witness_SubstitutionIsABijection :
    (0x41 : Byte) ∈ stdTable ∧ (0x2D : Byte) ∈ extTable ∧ toExtChar 0x41 = some 0x2D ∧ (0 : Sextet) < 63 := by decide

theorem witness_StatusWordLayout : (3 ≤ 7 ∧ 7 ≤ 7) ∧ (12 ≤ 31 ∧ 31 ≤ 31) := by decide

theorem witness_ResetFromAnyState : (running 0x3 [0x4D] [.reset]).schedule = .reset :: [] := rfl

/-- The invariant's steps: a completion, a host access, a reset. -/
theorem witness_EveryStepKeepsTheInvariant :
    (Inv (running 0x3 [0x4D] [.engine]) ∧ ∃ t, step (running 0x3 [0x4D] [.engine]) = .next t) ∧
    (Inv (running 0x3 [0x4D] [.host (.read 0x0C .word)]) ∧
      ∃ t, step (running 0x3 [0x4D] [.host (.read 0x0C .word)]) = .next t) ∧
    (Inv (running 0x3 [0x4D] [.reset]) ∧ ∃ t, step (running 0x3 [0x4D] [.reset]) = .next t) :=
  ⟨⟨inv_running _, _, rfl⟩, ⟨inv_running _, _, rfl⟩, ⟨inv_running _, _, rfl⟩⟩

theorem witness_CapAlwaysReadsInCap :
    (∃ t, step (running 0x3 [0x4D] [.engine]) = .next t) ∧
    (∃ t, runTurnsOf 2 { State.reset with schedule := [.host (.read 0x10 .word), .engine] } = .next t) ∧
    (waiting [] [.host (.read 0x10 .word)]).schedule = [.host (.read 0x10 .word)] ∧
    (waiting [] [.host (.write 0x10 (.word 1))]).schedule = [.host (.write 0x10 (.word 1))] :=
  ⟨⟨_, rfl⟩, ⟨_, rfl⟩, rfl, rfl⟩

/-- A sequence that fills the buffer, and the empty one. -/
theorem witness_LoadbPlacesTheInput :
    ({ waiting [] [] with cap := 1 }.capInRange ∧ { waiting [] [] with cap := 1 }.status.busy = false ∧
      ([0x4D] : List Byte).length = { waiting [] [] with cap := 1 }.inCap) ∧ ([] : List Byte).length ≤ (waiting [] []).inCap ∧
    { waiting [] ((loadb [0x4D]).map Turn.host ++ [Turn.engine]) with cap := 1 }.schedule =
      (loadb [0x4D]).map Turn.host ++ [Turn.engine] :=
  ⟨by decide, by decide, rfl⟩

theorem witness_RunPollsUntilDone :
    (waiting [0x4D] (runTurns (encode .b64e) 2 ++ [])).status.busy = false ∧
    (waiting [0x4D] (runTurns (encode .b64e) 2 ++ [])).schedule = runTurns (encode .b64e) 2 ++ [] := ⟨rfl, rfl⟩

end Sys2Proof.Tests
end

section
/-! PROOF. The decoder's answers as an equivalence (30_encoding.md R60 to R63), and the engine's step on each of them. -/

namespace Sys2Proof.Machine

/-- With the reserved field zero, a command word is its opcode (30_encoding.md R60). -/
theorem toNat_opcField_of_rsvField_eq_zero {w : Word} (h : rsvField w = 0) : (opcField w).toNat = w.toNat := by
  have hr : (rsvField w).toNat = 0 := by rw [h]; rfl
  simp only [rsvField, opcField, BitVec.extractLsb'_toNat, Nat.shiftRight_eq_div_pow] at hr ⊢
  omega

/-- The opcode map answers a command only for that command's opcode (30_encoding.md R62). -/
theorem toNat_encode_of_opcodeMap_eq_command {opc : BitVec 8} {i : Instr} (h : opcodeMap opc = .command i) :
    (encode i).toNat = opc.toNat := by
  unfold opcodeMap at h
  split at h <;> cases h <;> simp [encode, *]

@[simp] theorem decode_encode (i : Instr) : decode (encode i) = .command i := by cases i <;> rfl

/-- A word decodes to a command exactly when it is that command's word (30_encoding.md R62, R63). -/
theorem decode_eq_command_iff {w : Word} {i : Instr} : decode w = .command i ↔ w = encode i := by
  constructor
  · intro h
    unfold decode at h
    split at h
    · cases h
    · next hrsv =>
      have hopc := toNat_opcField_of_rsvField_eq_zero (not_not.1 hrsv)
      exact BitVec.eq_of_toNat_eq (by rw [toNat_encode_of_opcodeMap_eq_command h, hopc])
  · rintro rfl
    exact decode_encode i

theorem completeCommand_of_command {s : State} {i : Instr} (h : decode s.cmd = .command i) :
    completeCommand s = exec i s := by
  simp [completeCommand, h]

theorem completeCommand_of_illegal {s : State} {e : DecodeError} (h : decode s.cmd = .illegal e) :
    completeCommand s = .next (failureCommit .illegalCommand s) := by
  simp [completeCommand, h]

end Sys2Proof.Machine
end

section
/-! PROOF. Noninterference of the commands (00_scope.md R3): what a completion delivers depends on its operands alone. -/

namespace Sys2Proof.Machine

/-- What a conversion delivers to the host (00_scope.md R3) is the same in both states. -/
structure SameDelivery (t v : State) : Prop where
  status : t.status = v.status
  olen : t.olen = v.olen
  obufView : ∀ k, t.obufView k = v.obufView k

/-- After a success commit the host sees the committed sequence and nothing of the storage that was there before
(10_state.md R29, R32), even where the length wraps in `OLEN`. -/
theorem obufView_successCommit (out : List Byte) (s : State) (k : Nat) :
    (successCommit out s).obufView k = if k < (BitVec.ofNat 32 out.length).toNat then out.getD k 0 else 0 := by
  refine ite_congr rfl (fun hk => ?_) fun _ => rfl
  have hout : k < out.length := hk.trans_le (by simpa using Nat.mod_le _ _)
  rw [obufByte_successCommit_inside out s hout, List.getD_eq_getElem _ _ hout]

theorem sameDelivery_successCommit (out : List Byte) (s u : State) :
    SameDelivery (successCommit out s) (successCommit out u) where
  status := rfl
  olen := rfl
  obufView k := by rw [obufView_successCommit, obufView_successCommit]

theorem sameDelivery_failureCommit (e : ErrorClass) (s u : State) :
    SameDelivery (failureCommit e s) (failureCommit e u) where
  status := rfl
  olen := rfl
  obufView k := by simp

theorem inCap_congr {s u : State} (h : s.cap = u.cap) : s.inCap = u.inCap := congrArg BitVec.toNat h

/-- One pseudocode on two states with the same capacity and input. -/
theorem convert_sameDelivery (f : List Byte → Conversion) {s u : State} (hcap : s.inCap = u.inCap)
    (hlen : s.ilen = u.ilen) (hin : s.input = u.input) :
    ∃ t v, convert f s = .next t ∧ convert f u = .next v ∧ SameDelivery t v := by
  rcases convert_cases f s with ⟨hlong, hs⟩ | ⟨hfits, out, hout, hs⟩ | ⟨hfits, e, hraise, hs⟩
  · exact ⟨_, _, hs, convert_tooLong f (by rwa [← hcap, ← hlen]), sameDelivery_failureCommit _ s u⟩
  · exact ⟨_, _, hs, convert_out (by rwa [← hcap, ← hlen]) (hin ▸ hout), sameDelivery_successCommit out s u⟩
  · exact ⟨_, _, hs, convert_raise (by rwa [← hcap, ← hlen]) (hin ▸ hraise), sameDelivery_failureCommit e s u⟩

/-- A command word other than `XFER`'s, legal or not, on two states with the same parameters and operands. -/
theorem completeCommand_sameDelivery {s u : State} (hcmd : s.cmd = u.cmd) (hcap : s.inCap = u.inCap)
    (hstrict : s.strictTailBits = u.strictTailBits) (hx : s.cmd ≠ encode .xfer) (hlen : s.ilen = u.ilen)
    (hin : s.input = u.input) :
    ∃ t v, completeCommand s = .next t ∧ completeCommand u = .next v ∧ SameDelivery t v := by
  cases hd : decode s.cmd with
  | illegal e =>
    exact ⟨_, _, completeCommand_of_illegal hd, completeCommand_of_illegal (hcmd ▸ hd),
      sameDelivery_failureCommit _ s u⟩
  | command i =>
    have hi : i ≠ .xfer := by
      rintro rfl
      exact hx (decode_eq_command_iff.1 hd)
    obtain ⟨f, hf⟩ := pseudocode_isSome (strict := s.strictTailBits) hi
    rw [completeCommand_of_command hd, completeCommand_of_command (hcmd ▸ hd), exec_eq_convert hf,
      exec_eq_convert (hstrict ▸ hf)]
    exact convert_sameDelivery f hcap hlen hin

/-- A result that does not fit `IBUF` (60_exceptions.md R142). -/
theorem execXfer_tooLong {s : State} (h : s.inCap < s.olen.toNat) :
    execXfer s = .next (failureCommit .invalidArgument s) := if_pos h

/-- A result that fits `IBUF` is transferred (43_buffer.md R131). -/
theorem execXfer_fits {s : State} (h : s.olen.toNat ≤ s.inCap) : execXfer s = .next (xferCommit s) :=
  if_neg (Nat.not_lt.2 h)

/-- `XFER` on two states with the same capacity and result: it fails in both or transfers the same bytes in both. -/
theorem execXfer_sameTransfer {s u : State} (hcap : s.inCap = u.inCap) (holen : s.olen = u.olen)
    (hobuf : ∀ k < s.olen.toNat, s.obufByte k = u.obufByte k) :
    ∃ t v, execXfer s = .next t ∧ execXfer u = .next v ∧ t.status = v.status ∧
      (t.status.err = false → t.ilen = v.ilen ∧ ∀ k < t.ilen.toNat, t.ibufByte k = v.ibufByte k) := by
  rcases execXfer_cases s with ⟨hlong, hs⟩ | ⟨hfits, hs⟩
  · exact ⟨_, _, hs, execXfer_tooLong (by rwa [← hcap, ← holen]), rfl, by simp⟩
  · refine ⟨_, _, hs, execXfer_fits (by rwa [← hcap, ← holen]), rfl, fun _ => ⟨holen, fun k hk => ?_⟩⟩
    rw [xferCommit_ilen] at hk
    rw [ibufByte_xferCommit_inside s hk, ibufByte_xferCommit_inside u (holen ▸ hk), hobuf k hk]

/-- Settles O23: a conversion reads the state only through its input, and `XFER` only through the result. -/
theorem commandsArePure : Obligations.CommandsArePure := by
  intro s u hcmd hcap hstrict
  refine ⟨fun hx hlen hibuf => ?_, fun hx holen hobuf => ?_⟩
  · have hin : s.input = u.input := (input_congr hlen.symm fun k hk => (hibuf k hk).symm).symm
    obtain ⟨t, v, hs, hu, hstatus, holen, hview⟩ :=
      completeCommand_sameDelivery hcmd (inCap_congr hcap) hstrict hx hlen hin
    exact ⟨t, v, hs, hu, hstatus, holen, hview⟩
  · have hd : decode s.cmd = .command .xfer := decode_eq_command_iff.2 hx
    rw [completeCommand_of_command hd, completeCommand_of_command (hcmd ▸ hd)]
    exact execXfer_sameTransfer (inCap_congr hcap) holen hobuf

end Sys2Proof.Machine
end

section
/-! PROOF. What a step can answer, said once with a name for each case: the cases that every statement about steps is
split along (10_state.md R31, 20_memory.md R50, 70_reset_and_hazards.md R160). -/

namespace Sys2Proof.Machine

/-- What the engine's step can leave of a state: one of the three commits, and `XFER`'s only for `XFER`'s own word. -/
inductive Completion (s : State) : State → Prop
  | failed (e : ErrorClass) : Completion s (failureCommit e s)
  | converted (out : List Byte) (fits : s.ilen.toNat ≤ s.inCap) (length_le : out.length ≤ 2 * s.ilen.toNat + 2) :
      Completion s (successCommit out s)
  | transferred (cmd_eq : s.cmd = encode .xfer) (fits : s.olen.toNat ≤ s.inCap) : Completion s (xferCommit s)

/-- The engine completes every command, legal or not, and by nothing but a commit (10_state.md R31). -/
theorem exists_completion (s : State) : ∃ t, completeCommand s = .next t ∧ Completion s t := by
  cases hd : decode s.cmd with
  | illegal e => exact ⟨_, completeCommand_of_illegal hd, .failed _⟩
  | command i =>
    rw [completeCommand_of_command hd]
    rcases exec_cases i s with ⟨-, -, h⟩ | ⟨-, hfits, f, out, -, -, hlen, h⟩ | ⟨-, -, f, -, -, h⟩ | ⟨-, -, h⟩ |
      ⟨rfl, hfits, h⟩
    · exact ⟨_, h, .failed _⟩
    · exact ⟨_, h, .converted out hfits hlen⟩
    · exact ⟨_, h, .failed _⟩
    · exact ⟨_, h, .failed _⟩
    · exact ⟨_, h, .transferred (decode_eq_command_iff.1 hd) hfits⟩

theorem completion_of_completeCommand {s t : State} (h : completeCommand s = .next t) : Completion s t := by
  obtain ⟨u, hu, hc⟩ := exists_completion s
  rw [hu] at h
  cases h
  exact hc

theorem Completion.busy {s t : State} (h : Completion s t) : t.status.busy = false := by cases h <;> rfl
theorem Completion.done {s t : State} (h : Completion s t) : t.status.done = true := by cases h <;> rfl
theorem Completion.cmd {s t : State} (h : Completion s t) : t.cmd = s.cmd := by cases h <;> rfl
theorem Completion.port {s t : State} (h : Completion s t) : t.port = s.port := by cases h <;> rfl
theorem Completion.schedule {s t : State} (h : Completion s t) : t.schedule = s.schedule := by cases h <;> rfl

/-- The engine has the turn: it is scheduled, or nothing is (log entry 4). -/
def State.engineNext (s : State) : Prop := s.schedule = [] ∨ ∃ rest, s.schedule = .engine :: rest

/-- The state with its next turn taken; with nothing scheduled it is the state itself. -/
def State.turnTaken (s : State) : State := s.withSchedule s.schedule.tail

theorem turnTaken_of_nil {s : State} (h : s.schedule = []) : s.turnTaken = s := by
  rw [State.turnTaken, h, List.tail_nil, ← h, withSchedule_self]

theorem turnTaken_of_cons {s : State} {turn : Turn} {rest : List Turn} (h : s.schedule = turn :: rest) :
    s.turnTaken = s.withSchedule rest := by
  rw [State.turnTaken, h, List.tail_cons]

theorem step_of_engineNext {s : State} (h : s.engineNext) : step s = engineTurn s.turnTaken := by
  rcases h with h | ⟨rest, h⟩
  · rw [step_of_nil h, turnTaken_of_nil h]
  · rw [step_of_engine h, turnTaken_of_cons h]

theorem step_of_engineNext_busy {s : State} (h : s.engineNext) (hb : s.status.busy = true) :
    step s = completeCommand s.turnTaken :=
  (step_of_engineNext h).trans (engineTurn_busy hb)

theorem step_of_engineNext_idle {s : State} (h : s.engineNext) (hb : s.status.busy = false) :
    step s = .next s.turnTaken :=
  (step_of_engineNext h).trans (engineTurn_idle hb)

/-- Everything a step can leave of a state, by whose turn it is and whether a command is in flight. -/
inductive StepCase (s : State) : State → Prop
  | engineIdle (turn : s.engineNext) (idle : s.status.busy = false) : StepCase s s.turnTaken
  | completion {t : State} (turn : s.engineNext) (busy : s.status.busy = true) (commit : Completion s.turnTaken t) :
      StepCase s t
  | access {a : Access} {rest : List Turn} {op : HostOp} (turn : s.schedule = .host a :: rest)
      (meaning : resolve s.inCap a = some op) : StepCase s (hostOp op s.turnTaken)
  | reset {rest : List Turn} (turn : s.schedule = .reset :: rest) : StepCase s (applyReset s.turnTaken)

theorem stepCase_of_engineNext {s t : State} (turn : s.engineNext) (h : step s = .next t) : StepCase s t := by
  cases hb : s.status.busy with
  | false =>
    rw [step_of_engineNext_idle turn hb] at h
    cases h
    exact .engineIdle turn hb
  | true =>
    rw [step_of_engineNext_busy turn hb] at h
    exact .completion turn hb (completion_of_completeCommand h)

theorem stepCase_of_step {s t : State} (h : step s = .next t) : StepCase s t := by
  rcases step_cases s with ⟨hs, -⟩ | ⟨rest, hs, -⟩ | ⟨a, rest, hs, -⟩ | ⟨rest, hs, hc⟩
  · exact stepCase_of_engineNext (.inl hs) h
  · exact stepCase_of_engineNext (.inr ⟨rest, hs⟩) h
  · obtain ⟨op, hop, rfl⟩ := step_host_inv hs h
    rw [← turnTaken_of_cons hs]
    exact .access hs hop
  · rw [hc, ← turnTaken_of_cons hs] at h
    cases h
    exact .reset hs

end Sys2Proof.Machine
end

section
/-! PROOF. The invariant of 10_state.md R36: it holds after reset, and every update of the state keeps it. -/

namespace Sys2Proof.Machine

theorem capInRange_reset : State.reset.capInRange := by
  have h := Config.inCapLessOne.isLt
  simp only [State.capInRange, reset_inCap, Config.inCap]
  omega

/-- Settles O47: after reset no report stands, `OLEN` is 0 and both stores are empty. -/
theorem resetMeetsTheInvariant : Obligations.ResetMeetsTheInvariant where
  capRange := capInRange_reset
  busyNotDone := by decide
  errReported h := by cases h
  noErrNoCode _ := rfl
  olenFits := Nat.zero_le _
  ibufWf := .nil
  obufWf := .nil
  ibufInside c hc := by cases hc
  obufInside c hc := by cases hc
  resultWritten i hi := absurd hi (Nat.not_lt_zero i)

theorem inv_withSchedule {s : State} (h : Inv s) (turns : List Turn) : Inv (s.withSchedule turns) := { h with }

theorem inv_answered {s : State} (h : Inv s) (d : PortData) (drawn : Nat) : Inv (s.answered d drawn) := { h with }

theorem inv_withIlen {s : State} (h : Inv s) (w : Word) : Inv (s.withIlen w) := { h with }

theorem inv_acceptCommand {s : State} (h : Inv s) (w : Word) : Inv (acceptCommand w s) :=
  { h with
    busyNotDone := by simp
    errReported := by simp
    noErrNoCode := by simp }

theorem inv_failureCommit {s : State} (h : Inv s) (e : ErrorClass) : Inv (failureCommit e s) :=
  { h with
    busyNotDone := by simp
    errReported := fun _ => ⟨rfl, code_mem e, rfl⟩
    noErrNoCode := by simp
    olenFits := Nat.zero_le _
    resultWritten := fun i hi => absurd hi (Nat.not_lt_zero i) }

theorem inv_applyReset {s : State} (h : Inv s) : Inv (applyReset s) where
  capRange := h.capRange
  busyNotDone := by simp
  errReported := by simp
  noErrNoCode := by simp
  olenFits := Nat.zero_le _
  ibufWf := .nil
  obufWf := .nil
  ibufInside := by simp
  obufInside := by simp
  resultWritten := by simp

/-- Only a byte inside the capacity may be stored. -/
theorem inv_withIbufByte {s : State} (h : Inv s) {i : Nat} (hi : i < s.inCap) (b : Byte) : Inv (s.withIbufByte i b) :=
  { h with
    ibufWf := write_wf i b h.ibufWf
    ibufInside := fun c hc => by
      rcases mem_write hc with rfl | hc
      · exact hi
      · exact h.ibufInside c hc }

/-- `OLEN` holds the length of a result that fits 32 bits (10_state.md R32). -/
theorem toNat_olen_successCommit {out : List Byte} (s : State) (h : out.length < 2 ^ 32) :
    (successCommit out s).olen.toNat = out.length := by
  rw [successCommit_olen, BitVec.toNat_ofNat, Nat.mod_eq_of_lt h]

/-- A result that fits `OBUF` fits `OLEN`, whatever the parameter is (00_scope.md R7). -/
theorem length_lt_of_le_outCap {s : State} (h : s.capInRange) {out : List Byte} (hout : out.length ≤ s.outCap) :
    out.length < 2 ^ 32 := by
  obtain ⟨-, hcap⟩ := h
  unfold State.outCap at hout
  omega

/-- A result that fits `OBUF` keeps the invariant, and all of it has been written. -/
theorem inv_successCommit {s : State} (h : Inv s) {out : List Byte} (hout : out.length ≤ s.outCap) :
    Inv (successCommit out s) :=
  have holen := toNat_olen_successCommit s (length_lt_of_le_outCap h.capRange hout)
  { h with
    busyNotDone := by simp
    errReported := by simp
    noErrNoCode := by simp
    olenFits := holen.trans_le hout
    obufWf := writeAll_wf out 0 h.obufWf
    obufInside := fun c hc => by
      rcases mem_writeAll out hc with ⟨-, hc⟩ | hc
      · exact (Nat.zero_add out.length ▸ hc).trans_le hout
      · exact h.obufInside c hc
    resultWritten := fun i hi => by
      rw [successCommit_obuf, read?_writeAll_inside s.obuf out (holen ▸ hi), Option.isSome_some] }

/-- A result that fits `IBUF` is stored inside it. -/
theorem inv_xferCommit {s : State} (h : Inv s) (hfits : s.olen.toNat ≤ s.inCap) : Inv (xferCommit s) :=
  { h with
    busyNotDone := by simp
    errReported := by simp
    noErrNoCode := by simp
    ibufWf := writeAll_wf s.result 0 h.ibufWf
    ibufInside := fun c hc => by
      rcases mem_writeAll s.result hc with ⟨-, hc⟩ | hc
      · rw [result_length, Nat.zero_add] at hc
        exact hc.trans_le hfits
      · exact h.ibufInside c hc }

theorem inv_completion {s t : State} (h : Inv s) (hc : Completion s t) : Inv t := by
  cases hc with
  | failed e => exact inv_failureCommit h e
  | converted out fits length_le => exact inv_successCommit h (by unfold State.outCap; omega)
  | transferred _ fits => exact inv_xferCommit h fits

/-- A host access with a meaning keeps the invariant: it stores a byte only where the address map has one. -/
theorem inv_hostOp {s : State} (h : Inv s) {a : Access} {op : HostOp} (hop : resolve s.inCap a = some op) :
    Inv (hostOp op s) := by
  rcases hostOp_cases op s with ⟨d, k, hc⟩ | ⟨-, w, -, hc⟩ | ⟨-, w, -, hc⟩ | ⟨-, i, b, rfl, hc⟩ | hc <;> rw [hc]
  · exact inv_answered h d k
  · exact inv_acceptCommand h w
  · exact inv_withIlen h w
  · exact inv_withIbufByte h (resolve_writeByte_ibuf hop) b
  · exact h

/-- Settles O48, along the cases of a step. -/
theorem everyStepKeepsTheInvariant : Obligations.EveryStepKeepsTheInvariant := by
  intro s t h hstep
  have hu : Inv s.turnTaken := inv_withSchedule h _
  cases stepCase_of_step hstep with
  | engineIdle => exact hu
  | completion _ _ commit => exact inv_completion hu commit
  | access _ meaning => exact inv_hostOp hu meaning
  | reset => exact inv_applyReset hu

end Sys2Proof.Machine
end
section
/-! PROOF. The engine's turn: when it has a step, and what the step runs (10_state.md R31, 70_reset_and_hazards.md
R173). -/

namespace Sys2Proof.Machine

/-- A word of 32 bits is its own table word. -/
theorem tableWord_toNat (w : Word) : tableWord 32 w.toNat = w := by
  rw [tableWord, Nat.mod_eq_of_lt w.isLt, BitVec.ofNat_toNat, BitVec.setWidth_eq]

/-- After `withFetchWord` of a command's word the engine has the turn and the word is accepted (log entry 9). -/
theorem step_withFetchWord_encode (s : State) (i : Instr) :
    step (s.withFetchWord 32 (encode i).toNat) = exec i (acceptCommand (encode i) s) := by
  rw [State.withFetchWord, tableWord_toNat, step_of_engine rfl, withSchedule_withSchedule]
  exact (engineTurn_busy rfl).trans (completeCommand_of_command (decode_encode i))

/-- While a command is in flight the engine's turn runs what `CMD` decodes to (30_encoding.md R61). -/
theorem step_of_command {s : State} {i : Instr} (turn : s.engineNext) (hb : s.status.busy = true)
    (hd : decode s.cmd = .command i) : step s = exec i s.turnTaken :=
  (step_of_engineNext_busy turn hb).trans (completeCommand_of_command (s := s.turnTaken) hd)

theorem step_of_illegal {s : State} {e : DecodeError} (turn : s.engineNext) (hb : s.status.busy = true)
    (hd : decode s.cmd = .illegal e) : step s = .next (failureCommit .illegalCommand s.turnTaken) :=
  (step_of_engineNext_busy turn hb).trans (completeCommand_of_illegal (s := s.turnTaken) hd)

/-- Settles O4: the decoder's answer selects the engine's step. -/
theorem stepRunsTheDecodedCommand : Obligations.StepRunsTheDecodedCommand := by
  refine ⟨fun s i hb hd => ⟨fun hs => ?_, fun rest hs => ?_⟩, fun s e hb hd => ⟨fun hs => ?_, fun rest hs => ?_⟩,
    step_withFetchWord_encode⟩
  · rw [step_of_command (.inl hs) hb hd, turnTaken_of_nil hs]
  · rw [step_of_command (.inr ⟨rest, hs⟩) hb hd, turnTaken_of_cons hs]
  · rw [step_of_illegal (.inl hs) hb hd, turnTaken_of_nil hs]
  · rw [step_of_illegal (.inr ⟨rest, hs⟩) hb hd, turnTaken_of_cons hs]

/-- Settles O11: the engine's step is a commit while a command is in flight, and nothing otherwise. -/
theorem engineStepAlwaysCompletes : Obligations.EngineStepAlwaysCompletes := by
  refine ⟨fun s hb turn => ?_, fun s rest hb hs => ?_, fun s hb hs => ?_⟩
  · obtain ⟨t, ht, hc⟩ := exists_completion s.turnTaken
    exact ⟨t, (step_of_engineNext_busy turn hb).trans ht, hc.busy, hc.done, hc.cmd, hc.port⟩
  · rw [step_of_engineNext_idle (.inr ⟨rest, hs⟩) hb, turnTaken_of_cons hs]
  · rw [step_of_engineNext_idle (.inl hs) hb, turnTaken_of_nil hs]

end Sys2Proof.Machine
end

section
/-! PROOF. The host's accesses: what a write means by its offset, and what no access changes while a command is in
flight (20_memory.md R41, 10_state.md R30, R33, R34). -/

namespace Sys2Proof.Machine

/-- A `CMD` write is exactly a word write at offset 0x00 (20_memory.md R41). -/
theorem resolve_eq_writeCmd_iff {n : Nat} {a : Access} {w : Word} :
    resolve n a = some (.writeReg .cmd w) ↔ a = .write 0x00 (.word w) :=
  ⟨resolve_writeCmd, fun h => h ▸ rfl⟩

/-- A write has the meaning of a register write or of a byte write (20_memory.md R41). -/
theorem resolve_write {n : Nat} {off : Offset} {d : PortData} {op : HostOp} (h : resolve n (.write off d) = some op) :
    (∃ r w, op = .writeReg r w) ∨ ∃ p b, op = .writeByte p b := by
  cases d with
  | byte b =>
    obtain ⟨p, -, rfl⟩ := Option.map_eq_some_iff.1 h
    exact .inr ⟨p, b, rfl⟩
  | half v => cases h
  | word w =>
    obtain ⟨r, -, rfl⟩ := Option.map_eq_some_iff.1 h
    exact .inl ⟨r, w, rfl⟩

/-- Byte `i` of `IBUF` stands at 0x10000 + i and nowhere else (20_memory.md R42). -/
theorem toNat_of_byteAt_eq_ibuf {n : Nat} {off : Offset} {i : Nat} (h : byteAt n off = some (.ibuf i)) :
    off.toNat = 0x10000 + i := by
  unfold byteAt at h
  split at h
  · simp only [Option.some.injEq, BufferByte.ibuf.injEq] at h
    omega
  · split at h <;> cases h

/-- A write of `IBUF[i]` is a byte write at offset 0x10000 + i (20_memory.md R41). -/
theorem resolve_writeIbuf {n : Nat} {a : Access} {i : Nat} {b : Byte}
    (h : resolve n a = some (.writeByte (.ibuf i) b)) : ∃ off, a = .write off (.byte b) ∧ off.toNat = 0x10000 + i := by
  cases a with
  | read off width => cases width <;> simp [resolve] at h
  | write off d =>
    cases d with
    | byte c =>
      obtain ⟨p, hp, hq⟩ := Option.map_eq_some_iff.1 h
      cases hq
      exact ⟨off, rfl, toNat_of_byteAt_eq_ibuf hp⟩
    | half v => cases h
    | word w => simp [resolve] at h

theorem hostOp_writeReg_of_busy {s : State} (hb : s.status.busy = true) (r : Reg) (w : Word) :
    hostOp (.writeReg r w) s = s := by
  cases r <;> simp [hostOp, writeRegister, hb]

theorem hostOp_writeByte_of_busy {s : State} (hb : s.status.busy = true) (p : BufferByte) (b : Byte) :
    hostOp (.writeByte p b) s = s := by
  cases p <;> simp [hostOp, writeBufferByte, hb]

theorem hostOp_writeCmd_of_idle {s : State} (hb : s.status.busy = false) (w : Word) :
    hostOp (.writeReg .cmd w) s = acceptCommand w s := by
  simp [hostOp, writeRegister, hb]

/-- While a command is in flight a host access gives an answer at most (10_state.md R33, R34). -/
theorem hostOp_of_busy {s : State} (hb : s.status.busy = true) (op : HostOp) :
    (∃ d k, hostOp op s = s.answered d k) ∨ hostOp op s = s := by
  cases op with
  | readReg r => exact .inl ⟨_, _, rfl⟩
  | readByte p => exact .inl ⟨_, _, rfl⟩
  | writeReg r w => exact .inr (hostOp_writeReg_of_busy hb r w)
  | writeByte p b => exact .inr (hostOp_writeByte_of_busy hb p b)

/-- While a command is in flight no host access changes the block, its inputs included (10_state.md R30). -/
theorem sameBlock_hostOp_of_busy {s : State} (hb : s.status.busy = true) (op : HostOp) :
    SameBlock s (hostOp op s.turnTaken) := by
  rcases hostOp_of_busy (s := s.turnTaken) hb op with ⟨d, k, h⟩ | h <;> rw [h] <;>
    exact ⟨rfl, rfl, rfl, rfl, rfl, rfl, fun _ => rfl, fun _ => rfl⟩

/-- No host access changes `OLEN` (10_state.md R21) or the turns still to come. -/
theorem hostOp_keeps (op : HostOp) (s : State) :
    (hostOp op s).olen = s.olen ∧ (hostOp op s).schedule = s.schedule := by
  rcases hostOp_cases op s with ⟨d, k, hc⟩ | ⟨-, w, -, hc⟩ | ⟨-, w, -, hc⟩ | ⟨-, i, b, -, hc⟩ | hc <;> rw [hc] <;>
    exact ⟨rfl, rfl⟩

@[simp] theorem hostOp_olen (op : HostOp) (s : State) : (hostOp op s).olen = s.olen := (hostOp_keeps op s).1

@[simp] theorem hostOp_schedule (op : HostOp) (s : State) : (hostOp op s).schedule = s.schedule :=
  (hostOp_keeps op s).2

/-- The host access that makes an idle block busy is the `CMD` write (10_state.md R15). -/
theorem hostOp_busy_iff_of_idle {s : State} (hb : s.status.busy = false) (op : HostOp) :
    (hostOp op s).status.busy = true ↔ ∃ w, op = .writeReg .cmd w := by
  constructor
  · intro h
    rcases hostOp_cases op s with ⟨d, k, hc⟩ | ⟨-, w, hop, -⟩ | ⟨-, w, -, hc⟩ | ⟨-, i, b, -, hc⟩ | hc
    · simp [hc, hb] at h
    · exact ⟨w, hop⟩
    · simp [hc, hb] at h
    · simp [hc, hb] at h
    · simp [hc, hb] at h
  · rintro ⟨w, rfl⟩
    rw [hostOp_writeCmd_of_idle hb]
    rfl

/-- A write that its meaning ignores takes the turn alone. -/
theorem step_of_ignored {s : State} {a : Access} {rest : List Turn} {op : HostOp} (hs : s.schedule = .host a :: rest)
    (hop : resolve s.inCap a = some op) (hsame : hostOp op (s.withSchedule rest) = s.withSchedule rest) :
    step s = .next (s.withSchedule rest) := by
  rw [step_hostOp hs hop, hsame]

/-- Settles O5: the acceptance of a command, and the block as no host access changes it afterwards. -/
theorem commandStart : Obligations.CommandStart := by
  refine ⟨fun s w rest hb hs => ?_, fun s t a rest hb hs h => ?_⟩
  · rw [step_hostOp hs (resolve_eq_writeCmd_iff.2 rfl)]
    exact congrArg _ (hostOp_writeCmd_of_idle (s := s.withSchedule rest) hb w)
  · obtain ⟨op, -, rfl⟩ := step_host_inv hs h
    rw [← turnTaken_of_cons hs]
    have hsame := sameBlock_hostOp_of_busy hb op
    exact ⟨hsame.cmd, hsame.ilen, hsame.olen, hsame.status, hsame.ibuf, hsame.obuf⟩

/-- Settles O6: by `BUSY` for every write, and by the meaning of the offset for the places that take none. -/
theorem writesIgnored : Obligations.WritesIgnored := by
  refine ⟨fun s off d rest hb hlisted hs => ?_, fun s off w rest hoff hs => ?_, fun s j b rest hcap hj hs => ?_⟩
  · obtain ⟨op, hop⟩ := Option.isSome_iff_exists.1 ((resolve_isSome_iff _ _).2 hlisted)
    rcases resolve_write hop with ⟨r, w, rfl⟩ | ⟨p, b, rfl⟩
    · exact step_of_ignored hs hop (hostOp_writeReg_of_busy (s := s.withSchedule rest) hb r w)
    · exact step_of_ignored hs hop (hostOp_writeByte_of_busy (s := s.withSchedule rest) hb p b)
  · rcases hoff with rfl | rfl | rfl
    · exact step_of_ignored hs (op := .writeReg .status w) rfl rfl
    · exact step_of_ignored hs (op := .writeReg .olen w) rfl rfl
    · exact step_of_ignored hs (op := .writeReg .cap w) rfl rfl
  · have hop : resolve s.inCap (.write (BitVec.ofNat 18 (0x20000 + j)) (.byte b)) =
        some (.writeByte (.obuf j) b) := by
      rw [resolve, byteAt_obufOffset hcap.2 hj, Option.map_some]
    exact step_of_ignored hs hop rfl

/-- What a host reads of `STATUS` while a command is in flight (10_state.md R34). -/
theorem statusWord_started : statusWord .started = 0x00000001 := by decide

/-- A block that meets the invariant and runs a command holds no report (10_state.md R36). -/
theorem Inv.status_of_busy {s : State} (h : Inv s) (hb : s.status.busy = true) : s.status = .started := by
  have hdone : s.status.done = false := by
    cases hd : s.status.done with
    | false => rfl
    | true => exact absurd ⟨hb, hd⟩ h.busyNotDone
  have herr : s.status.err = false := by
    cases he : s.status.err with
    | false => rfl
    | true => exact absurd (h.errReported he).1 (by simp [hdone])
  have hecode : s.status.ecode = 0 := h.noErrNoCode herr
  calc s.status = ⟨s.status.busy, s.status.done, s.status.err, s.status.ecode⟩ := rfl
    _ = .started := by rw [hb, hdone, herr, hecode]; rfl

/-- A buffer read while a command is in flight draws a free byte (10_state.md R34). -/
theorem step_readByte_of_busy {s : State} {off : Offset} {rest : List Turn} {p : BufferByte}
    (hb : s.status.busy = true) (hs : s.schedule = .host (.read off .byte) :: rest) (hp : byteAt s.inCap off = some p) :
    step s = .next ((s.withSchedule rest).answered (.byte (Config.busyByte s.draws)) 1) := by
  have hop : resolve s.inCap (.read off .byte) = some (.readByte p) := by rw [resolve, hp, Option.map_some]
  rw [step_hostOp hs hop]
  simp [hostOp, byteValue, byteDraws, hb]

/-- Settles O7: each register at its offset, then the two buffers. -/
theorem readsWhileBusy : Obligations.ReadsWhileBusy := by
  intro s rest hinv hb
  refine ⟨fun off v hmem hs => ?_, fun hs => ?_, fun off hoff hs => ?_⟩
  · simp only [List.mem_cons, Prod.mk.injEq, List.not_mem_nil, or_false] at hmem
    rcases hmem with ⟨rfl, rfl⟩ | ⟨rfl, rfl⟩ | ⟨rfl, rfl⟩ | ⟨rfl, rfl⟩
    · exact step_hostOp hs (op := .readReg .cmd) rfl
    · rw [step_hostOp hs (op := .readReg .status) rfl, hostOp, regValue, withSchedule_status, hinv.status_of_busy hb,
        statusWord_started, ← hinv.status_of_busy hb]
      rfl
    · exact step_hostOp hs (op := .readReg .ilen) rfl
    · exact step_hostOp hs (op := .readReg .cap) rfl
  · rw [step_hostOp hs (op := .readReg .olen) rfl]
    simp [hostOp, regValue, regDraws, hb, State.answered, State.withSchedule]
  · obtain ⟨i, ⟨hi, rfl⟩ | ⟨hi, rfl⟩⟩ := hoff
    · exact step_readByte_of_busy hb hs (byteAt_ibufOffset hinv.capRange.2 hi)
    · exact step_readByte_of_busy hb hs (byteAt_obufOffset hinv.capRange.2 hi)

end Sys2Proof.Machine
end

section
/-! PROOF. What sets and clears `BUSY`, and what changes the operands, over every step (10_state.md R15, R20 to R23). -/

namespace Sys2Proof.Machine

theorem engineNext_not_host {s : State} (h : s.engineNext) (a : Access) (rest : List Turn) :
    s.schedule ≠ .host a :: rest := by
  rcases h with h | ⟨rest', h⟩ <;> simp [h]

/-- An idle block becomes busy exactly by a `CMD` write (10_state.md R15). -/
theorem StepCase.busy_iff_of_idle {s t : State} (h : StepCase s t) (hb : s.status.busy = false) :
    t.status.busy = true ↔ ∃ w rest, s.schedule = .host (.write 0x00 (.word w)) :: rest := by
  cases h with
  | engineIdle turn _ =>
    exact iff_of_false (by simp [State.turnTaken, hb]) fun ⟨_, _, hs⟩ => engineNext_not_host turn _ _ hs
  | completion _ busy _ => simp [hb] at busy
  | @access a rest op turn meaning =>
    rw [hostOp_busy_iff_of_idle (s := s.turnTaken) hb, turn]
    constructor
    · rintro ⟨w, rfl⟩
      exact ⟨w, rest, by rw [resolve_eq_writeCmd_iff.1 meaning]⟩
    · rintro ⟨w, rest', hs⟩
      cases hs
      exact ⟨w, by simpa [resolve, regAt] using meaning.symm⟩
  | reset turn => exact iff_of_false (by simp) (by simp [turn])

/-- A busy block becomes idle exactly by the engine's turn or by reset (10_state.md R15, 70_reset_and_hazards.md
R161). -/
theorem StepCase.idle_iff_of_busy {s t : State} (h : StepCase s t) (hb : s.status.busy = true) :
    t.status.busy = false ↔
      s.schedule = [] ∨ ∃ rest, s.schedule = .engine :: rest ∨ s.schedule = .reset :: rest := by
  cases h with
  | engineIdle _ idle => simp [hb] at idle
  | completion turn _ commit =>
    exact iff_of_true commit.busy (turn.imp_right fun ⟨rest, hs⟩ => ⟨rest, .inl hs⟩)
  | @access a rest op turn _ =>
    exact iff_of_false (by simp [(sameBlock_hostOp_of_busy hb op).status, hb]) (by simp [turn])
  | @reset rest turn => exact iff_of_true rfl (.inr ⟨rest, .inr turn⟩)

/-- A step that leaves a busy block busy was a host access, and it changed nothing of the block (10_state.md R30). -/
theorem StepCase.sameBlock_of_busy {s t : State} (h : StepCase s t) (hb : s.status.busy = true)
    (ht : t.status.busy = true) : SameBlock s t := by
  cases h with
  | engineIdle _ idle => simp [hb] at idle
  | completion _ _ commit => simp [commit.busy] at ht
  | @access a rest op _ _ => exact sameBlock_hostOp_of_busy hb op
  | reset _ => simp at ht

/-- Settles O13, along the cases of a step. -/
theorem onlyStartSetsBusyOnlyEngineOrResetClearsIt : Obligations.OnlyStartSetsBusyOnlyEngineOrResetClearsIt := by
  intro s t h
  have hcase := stepCase_of_step h
  refine ⟨hcase.busy_iff_of_idle, hcase.idle_iff_of_busy, fun hb ht => ?_⟩
  have hsame := hcase.sameBlock_of_busy hb ht
  exact ⟨hsame.ilen, hsame.olen, hsame.ibuf, hsame.obuf⟩

/-- Only `XFER`'s commit changes `ILEN`, and it takes the length from `OLEN` (43_buffer.md R131). -/
theorem Completion.ilen_changed {s t : State} (h : Completion s t) (hne : t.ilen ≠ s.ilen) :
    s.cmd = encode .xfer ∧ t.status = .succeeded ∧ t.ilen = s.olen := by
  cases h with
  | failed e => exact absurd rfl hne
  | converted out => exact absurd rfl hne
  | transferred cmd_eq => exact ⟨cmd_eq, rfl, rfl⟩

/-- Only `XFER`'s commit changes a byte of `IBUF`, and only one below `OLEN` (43_buffer.md R131). -/
theorem Completion.ibufByte_changed {s t : State} (h : Completion s t) {i : Nat}
    (hne : t.ibufByte i ≠ s.ibufByte i) : s.cmd = encode .xfer ∧ t.status = .succeeded ∧ i < s.olen.toNat := by
  cases h with
  | failed e => exact absurd rfl hne
  | converted out => exact absurd rfl hne
  | transferred cmd_eq => exact ⟨cmd_eq, rfl, Nat.lt_of_not_le fun hi => hne (ibufByte_xferCommit_outside s hi)⟩

/-- Only an `ILEN` write among the host's accesses changes `ILEN` (10_state.md R20). -/
theorem hostOp_ilen_changed {op : HostOp} {s : State} (hne : (hostOp op s).ilen ≠ s.ilen) :
    op = .writeReg .ilen (hostOp op s).ilen := by
  rcases hostOp_cases op s with ⟨d, k, hc⟩ | ⟨-, w, -, hc⟩ | ⟨-, w, hop, hc⟩ | ⟨-, i, b, -, hc⟩ | hc <;>
    rw [hc] at hne ⊢
  · exact absurd rfl hne
  · exact absurd rfl hne
  · exact hop
  · exact absurd rfl hne
  · exact absurd rfl hne

/-- Only a write of that byte among the host's accesses changes a byte of `IBUF` (10_state.md R23). -/
theorem hostOp_ibufByte_changed {op : HostOp} {s : State} {i : Nat}
    (hne : (hostOp op s).ibufByte i ≠ s.ibufByte i) : op = .writeByte (.ibuf i) ((hostOp op s).ibufByte i) := by
  rcases hostOp_cases op s with ⟨d, k, hc⟩ | ⟨-, w, -, hc⟩ | ⟨-, w, -, hc⟩ | ⟨-, j, b, hop, hc⟩ | hc <;>
    rw [hc] at hne ⊢
  · exact absurd rfl hne
  · exact absurd rfl hne
  · exact absurd rfl hne
  · rw [ibufByte_withIbufByte] at hne ⊢
    by_cases hij : j = i
    · rw [if_pos hij, hop, hij]
    · exact absurd (if_neg hij) hne
  · exact absurd rfl hne

/-- Settles O14, along the cases of a step. -/
theorem onlyTheseEventsChangeOperands : Obligations.OnlyTheseEventsChangeOperands := by
  intro s t h hreset
  cases stepCase_of_step h with
  | engineIdle => exact ⟨(absurd rfl ·), (absurd rfl ·), fun _ => (absurd rfl ·)⟩
  | completion _ busy commit =>
    exact ⟨fun hne => .inr ⟨busy, commit.ilen_changed hne⟩, fun _ => ⟨busy, commit.busy, commit.done⟩,
      fun i hne => .inr ⟨busy, commit.ibufByte_changed hne⟩⟩
  | @access a rest op turn meaning =>
    refine ⟨fun hne => .inl ?_, fun hne => absurd (hostOp_olen op s.turnTaken) hne, fun i hne => .inl ?_⟩
    · have hop := hostOp_ilen_changed (s := s.turnTaken) hne
      exact ⟨_, rest, by rw [turn, resolve_writeIlen (meaning.trans (congrArg some hop))], rfl⟩
    · have hop := hostOp_ibufByte_changed (s := s.turnTaken) hne
      obtain ⟨off, ha, hoff⟩ := resolve_writeIbuf (meaning.trans (congrArg some hop))
      exact ⟨off, _, rest, by rw [turn, ha], hoff, rfl⟩
  | @reset rest turn => exact absurd turn (hreset rest)

end Sys2Proof.Machine
end

section
/-! PROOF. Runs of the block: every schedule with a meaning ends idle, and the parameters stay (70_reset_and_hazards.md
R172, 10_state.md R22). -/

namespace Sys2Proof.Machine

/-- The first step of a run, and the rest of the run after it. -/
theorem run_succ_of_step {M : Host.Core} {s t : M.State} (n : Nat) (h : M.step s = .next t) :
    M.run (n + 1) s = M.run n t := by
  simp only [Host.Core.run, h]

theorem runTurnsOf_succ {s t : State} (n : Nat) (h : step s = .next t) : runTurnsOf (n + 1) s = runTurnsOf n t :=
  run_succ_of_step (M := core) n h

/-- A run that answers a state answered one at its first step. -/
theorem exists_step_of_runTurnsOf_succ {s t : State} {n : Nat} (h : runTurnsOf (n + 1) s = .next t) :
    ∃ u, step s = .next u ∧ runTurnsOf n u = .next t := by
  simp only [runTurnsOf, Host.Core.run] at h
  split at h
  · next u hu => exact ⟨u, hu, h⟩
  · cases h
  · cases h

/-- What every step keeps, every run keeps. -/
theorem runTurnsOf_keeps {P : State → Prop} (hkeep : ∀ s t, P s → step s = .next t → P t) {n : Nat} {s t : State}
    (hs : P s) (h : runTurnsOf n s = .next t) : P t := by
  induction n generalizing s with
  | zero => cases h; exact hs
  | succ n ih =>
    obtain ⟨u, hu, hrun⟩ := exists_step_of_runTurnsOf_succ h
    exact ih (hkeep s u hs hu) hrun

/-- No run writes a parameter (10_state.md R36 (e)). -/
theorem runTurnsOf_parameters {n : Nat} {s t : State} (h : runTurnsOf n s = .next t) :
    t.cap = s.cap ∧ t.strictTailBits = s.strictTailBits :=
  runTurnsOf_keeps (P := fun u => u.cap = s.cap ∧ u.strictTailBits = s.strictTailBits)
    (fun _ _ hu hstep => (step_parameters hstep).imp (·.trans hu.1) (·.trans hu.2)) ⟨rfl, rfl⟩ h

/-- Settles O49: no step writes a parameter, and an access to `CAP` is a read or is ignored. -/
theorem capAlwaysReadsInCap : Obligations.CapAlwaysReadsInCap := by
  refine ⟨fun s t h => step_parameters h, fun turns n t hrun => ?_, fun s rest hs => ?_, fun s w rest hs => ?_⟩
  · obtain ⟨hcap, hstrict⟩ := runTurnsOf_parameters hrun
    exact ⟨(inCap_congr hcap).trans reset_inCap, hstrict⟩
  · exact step_hostOp hs (op := .readReg .cap) rfl
  · exact step_of_ignored hs (op := .writeReg .cap w) rfl rfl

/-- A step takes one turn. -/
theorem StepCase.schedule {s t : State} (h : StepCase s t) : t.schedule = s.schedule.tail := by
  cases h with
  | engineIdle => rfl
  | completion _ _ commit => exact commit.schedule
  | access => exact hostOp_schedule _ _
  | reset => rfl

/-- Only an access without a meaning stops a step (20_memory.md R47). -/
theorem exists_step_of_scheduleLegal {s : State} (h : s.scheduleLegal) : ∃ t, step s = .next t := by
  have hengine : s.engineNext → ∃ t, step s = .next t := by
    intro turn
    cases hb : s.status.busy with
    | false => exact ⟨_, step_of_engineNext_idle turn hb⟩
    | true =>
      obtain ⟨t, ht, -⟩ := exists_completion s.turnTaken
      exact ⟨t, (step_of_engineNext_busy turn hb).trans ht⟩
  rcases step_cases s with ⟨hs, -⟩ | ⟨rest, hs, -⟩ | ⟨a, rest, hs, -⟩ | ⟨rest, -, hc⟩
  · exact hengine (.inl hs)
  · exact hengine (.inr ⟨rest, hs⟩)
  · obtain ⟨op, hop⟩ := Option.ne_none_iff_exists'.1 (h a (by simp [hs]))
    exact ⟨_, step_hostOp hs hop⟩
  · exact ⟨_, hc⟩

theorem scheduleLegal_of_step {s t : State} (h : s.scheduleLegal) (hstep : step s = .next t) : t.scheduleLegal := by
  intro a ha
  rw [inCap_congr (step_parameters hstep).1]
  exact h a (List.mem_of_mem_tail ((stepCase_of_step hstep).schedule ▸ ha))

/-- With nothing scheduled one step ends idle (70_reset_and_hazards.md R173). -/
theorem StepCase.idle_of_schedule_nil {s t : State} (h : StepCase s t) (hs : s.schedule = []) :
    t.status.busy = false := by
  cases hb : s.status.busy with
  | true => exact (h.idle_iff_of_busy hb).2 (.inl hs)
  | false =>
    refine Bool.eq_false_iff.2 fun ht => ?_
    obtain ⟨w, rest, hw⟩ := (h.busy_iff_of_idle hb).1 ht
    simp [hs] at hw

/-- Settles O12, by induction on the number of turns scheduled. -/
theorem legalScheduleEndsIdle : Obligations.LegalScheduleEndsIdle := by
  intro s hlegal
  induction hn : s.schedule.length generalizing s with
  | zero =>
    have hs : s.schedule = [] := List.length_eq_zero_iff.1 hn
    obtain ⟨t, ht⟩ := exists_step_of_scheduleLegal hlegal
    have hcase := stepCase_of_step ht
    exact ⟨t, runTurnsOf_succ 0 ht, hcase.idle_of_schedule_nil hs, by rw [hcase.schedule, hs, List.tail_nil]⟩
  | succ n ih =>
    obtain ⟨u, hu⟩ := exists_step_of_scheduleLegal hlegal
    have hlen : u.schedule.length = n := by
      rw [(stepCase_of_step hu).schedule, List.length_tail, hn, Nat.add_sub_cancel]
    rw [runTurnsOf_succ (n + 1) hu]
    exact ih u (scheduleLegal_of_step hlegal hu) hlen

end Sys2Proof.Machine
end
section
/-! PROOF. The success commit of a conversion, and the longest result of each (10_state.md R21, R32). -/

namespace Sys2Proof.Machine

/-- Twice an input that fits and two bytes more is `OUT_CAP` (00_scope.md R7). -/
theorem length_le_outCap {s : State} {n : Nat} (hfits : s.ilen.toNat ≤ s.inCap) (h : n ≤ 2 * s.ilen.toNat + 2) :
    n ≤ s.outCap := by
  unfold State.outCap
  omega

theorem conversionFrame_successCommit {s : State} {out : List Byte} (h : out.length < 2 ^ 32) :
    ConversionFrame s (successCommit out s) where
  cmd := rfl
  ilen := rfl
  ibuf _ := rfl
  obuf _ hi := obufByte_successCommit_outside out s (toNat_olen_successCommit s h ▸ hi)
  environment := ⟨rfl, rfl, rfl, rfl, rfl, rfl⟩

/-- Settles O17: a conversion is `convert` on its pseudocode, and its result fits `OLEN`. -/
theorem successCommit_spec : Obligations.SuccessCommit := by
  intro i s f out hcap hf hfits hout
  have hlen : out.length ≤ 2 * s.ilen.toNat + 2 := input_length s ▸ pseudocode_length hf hout
  have hword := length_lt_of_le_outCap hcap (length_le_outCap hfits hlen)
  exact ⟨successCommit out s, (exec_eq_convert hf).trans (convert_out hfits hout), toNat_olen_successCommit s hword,
    result_successCommit out s hword, rfl, conversionFrame_successCommit hword⟩

/-- The rule's own bound for each conversion (10_state.md R21). -/
theorem pseudocode_length_le_longestResult {strict : Bool} {i : Instr} {f : List Byte → Conversion}
    (hi : pseudocode strict i = some f) {s out : List Byte} (h : f s = .out out) :
    out.length ≤ longestResult i s.length := by
  cases i <;> simp only [pseudocode, Option.some.injEq, reduceCtorEq] at hi <;> subst hi <;> simp only [longestResult]
  case b2h => cases h; simp
  case h2b => have := hexToBytes_length h; omega
  case b64e => cases h; simp
  case b64d => have := base64ToBytes_length h; omega
  case h2b64 =>
    obtain ⟨bytes, hbytes, hb64⟩ := andThen_eq_out h
    have := hexToBytes_length hbytes
    cases hb64
    rw [bytesToBase64_length]
    omega
  case b642h =>
    obtain ⟨bytes, hbytes, hhex⟩ := andThen_eq_out h
    have := base64ToBytes_length hbytes
    cases hhex
    rw [bytesToHex_length]
    omega
  case b2url => cases h; exact base64ToBase64Url_length s
  case url2b => exact mapped_repadded_length h
  case b2ext => exact base64ToBase64Ext_length h
  case ext2b => exact mapped_repadded_length h

/-- A conversion that reports no error ended with a result, on an input that fits. -/
theorem exec_succeeded {i : Instr} {s t : State} (hx : i ≠ .xfer) (h : exec i s = .next t)
    (herr : t.status.err = false) :
    ∃ f out, pseudocode s.strictTailBits i = some f ∧ s.ilen.toNat ≤ s.inCap ∧ f s.input = .out out ∧
      t = successCommit out s := by
  obtain ⟨f, hf⟩ := pseudocode_isSome (strict := s.strictTailBits) hx
  rw [exec_eq_convert hf] at h
  rcases convert_cases f s with ⟨-, hc⟩ | ⟨hfits, out, hout, hc⟩ | ⟨-, e, -, hc⟩ <;> rw [hc] at h <;> cases h
  · cases herr
  · exact ⟨f, out, hf, hfits, hout, rfl⟩
  · cases herr

/-- Settles O25: by the bound of each pseudocode, and by the one that holds for all of them. -/
theorem resultLengthsFit : Obligations.ResultLengthsFit := by
  intro i s t hcap hx h herr
  obtain ⟨f, out, hf, hfits, hout, rfl⟩ := exec_succeeded hx h herr
  have hbound := pseudocode_length_le_longestResult hf hout
  have hlen := pseudocode_length hf hout
  rw [input_length] at hbound hlen
  have hcapOut := length_le_outCap hfits hlen
  rw [toNat_olen_successCommit s (length_lt_of_le_outCap hcap hcapOut)]
  exact ⟨hbound, hcapOut⟩

end Sys2Proof.Machine
end

section
/-! PROOF. The word of `STATUS`, the inverse lookups and the state after reset (10_state.md R14, R19, R27, R35). -/

namespace Sys2Proof.Machine

/-- From bit 8 on the `STATUS` word is `ECODE`, which has four bits (10_state.md R14). -/
theorem getLsbD_statusWord_high (st : Status) (k : Nat) :
    (statusWord st).getLsbD (8 + k) = st.ecode.getLsbD k := by
  rw [statusWord, BitVec.getLsbD_append, if_neg (by omega), BitVec.getLsbD_append, Nat.add_sub_cancel_left]
  split
  · rfl
  · rw [BitVec.getLsbD_zero, BitVec.getLsbD_of_ge _ _ (by omega)]

/-- Below bit 8 it is the three flags, the first at bit 0. -/
theorem getLsbD_statusWord_low (st : Status) {k : Nat} (hk : k < 8) :
    (statusWord st).getLsbD k =
      if k < 1 then st.busy else if k < 2 then st.done else if k < 3 then st.err else false := by
  rw [statusWord, BitVec.getLsbD_append, if_pos hk]
  simp only [BitVec.getLsbD_append, BitVec.getLsbD_ofBool, BitVec.getLsbD_zero]
  rcases k with _ | _ | _ | k <;> simp

/-- Settles O16, field by field. -/
theorem statusWordLayout : Obligations.StatusWordLayout := by
  intro st
  refine ⟨?busy, ?done, ?err, ?ecode, fun k hk => ?_⟩
  case busy => exact getLsbD_statusWord_low st (by decide)
  case done => exact getLsbD_statusWord_low st (by decide)
  case err => exact getLsbD_statusWord_low st (by decide)
  case ecode =>
    ext k hk
    rw [BitVec.getElem_extractLsb', getLsbD_statusWord_high, BitVec.getLsbD_eq_getElem hk]
  rcases hk with ⟨hlo, hhi⟩ | ⟨hlo, -⟩
  · rw [getLsbD_statusWord_low st (by omega), if_neg (by omega), if_neg (by omega), if_neg (by omega)]
  · obtain ⟨j, rfl⟩ : ∃ j, k = 8 + j := ⟨k - 8, by omega⟩
    rw [getLsbD_statusWord_high, BitVec.getLsbD_of_ge _ _ (by omega)]

/-- `STD` holds letters, digits and two signs: no control, no space and no code from 0x7F on. -/
theorem std_printable : ∀ v : Sextet, 0x20 < (std v).toNat ∧ (std v).toNat < 0x7F := by decide

theorem ext_printable : ∀ v : Sextet, 0x20 < (ext v).toNat ∧ (ext v).toNat < 0x7F := by decide

/-- `STD_INV` inverts `STD` (10_state.md R27). -/
theorem stdInv_eq_some_iff {c : Byte} {v : Sextet} : stdInv c = some v ↔ std v = c :=
  ⟨std_of_stdInv, fun h => h ▸ stdInv_std v⟩

theorem extInv_eq_some_iff {c : Byte} {v : Sextet} : extInv c = some v ↔ ext v = c :=
  ⟨ext_of_extInv, fun h => h ▸ extInv_ext v⟩

/-- A character that is no printable one is in neither alphabet. -/
theorem stdInv_eq_none_of_unprintable {c : Byte} (h : 0x7F ≤ c.toNat ∨ c.toNat ≤ 0x20) : stdInv c = none := by
  refine Option.eq_none_iff_forall_ne_some.2 fun v hv => ?_
  have := std_printable v
  rw [std_of_stdInv hv] at this
  omega

theorem extInv_eq_none_of_unprintable {c : Byte} (h : 0x7F ≤ c.toNat ∨ c.toNat ≤ 0x20) : extInv c = none := by
  refine Option.eq_none_iff_forall_ne_some.2 fun v hv => ?_
  have := ext_printable v
  rw [ext_of_extInv hv] at this
  omega

/-- Settles O43: the tables hold each character once, and only printable ones. -/
theorem inverseLookups : Obligations.InverseLookups := by
  refine ⟨fun _ _ => stdInv_eq_some_iff, fun _ _ => extInv_eq_some_iff, by decide, fun c hc => ?_⟩
  have hunprintable : 0x7F ≤ c.toNat ∨ c.toNat ≤ 0x20 := by omega
  exact ⟨stdInv_eq_none_of_unprintable hunprintable, extInv_eq_none_of_unprintable hunprintable⟩

/-- With `OLEN` at 0 a host reads 0x00 everywhere in `OBUF` (10_state.md R29). -/
theorem obufView_of_olen_eq_zero {s : State} (h : s.olen = 0) (i : Nat) : s.obufView i = 0 := by
  simp [State.obufView, h]

/-- Settles O45: the registers by their values, the stores by being empty. -/
theorem resetValues : Obligations.ResetValues :=
  ⟨rfl, by decide, rfl, rfl, reset_inCap, obufView_of_olen_eq_zero rfl, rfl, fun _ => rfl⟩

end Sys2Proof.Machine
end

section
/-! PROOF. The host port of an idle block, the accesses without a meaning, and an access made twice (20_memory.md R41,
R47, R48). -/

namespace Sys2Proof.Machine

/-- A register's word access is a register operation at its offset (20_memory.md R42). -/
theorem resolve_readReg (n : Nat) (r : Reg) : resolve n (.read (regOffset r) .word) = some (.readReg r) := by
  rw [resolve, regAt_regOffset, Option.map_some]

theorem regDraws_of_idle {s : State} (hb : s.status.busy = false) (r : Reg) : regDraws r s = 0 := by
  cases r <;> simp [regDraws, hb]

/-- Only while a command is in flight is a read of `OLEN` unspecified (10_state.md R34). -/
theorem regValue_olen_of_idle {s : State} (hb : s.status.busy = false) : regValue .olen s = s.olen := by
  simp [regValue, hb]

theorem byteValue_ibuf_of_idle {s : State} (hb : s.status.busy = false) (i : Nat) :
    byteValue (.ibuf i) s = s.ibufByte i := by
  simp [byteValue, hb]

theorem byteValue_obuf_of_idle {s : State} (hb : s.status.busy = false) (i : Nat) :
    byteValue (.obuf i) s = s.obufView i := by
  simp [byteValue, hb]

/-- A register read of an idle block returns the register's value and draws nothing (20_memory.md R41). -/
theorem step_readReg_of_idle {s : State} {rest : List Turn} (hb : s.status.busy = false) (r : Reg)
    (hs : s.schedule = .host (.read (regOffset r) .word) :: rest) :
    step s = .next ((s.withSchedule rest).answered (.word (regValue r s)) 0) := by
  rw [step_hostOp hs (resolve_readReg _ r), hostOp, regDraws_of_idle (s := s.withSchedule rest) hb]
  rfl

/-- A buffer read of an idle block returns the byte's value and draws nothing (20_memory.md R41). -/
theorem step_readByte_of_idle {s : State} {off : Offset} {rest : List Turn} {p : BufferByte}
    (hb : s.status.busy = false) (hs : s.schedule = .host (.read off .byte) :: rest) (hp : byteAt s.inCap off = some p) :
    step s = .next ((s.withSchedule rest).answered (.byte (byteValue p s)) 0) := by
  have hop : resolve s.inCap (.read off .byte) = some (.readByte p) := by rw [resolve, hp, Option.map_some]
  have hdraws : byteDraws (s.withSchedule rest) = 0 := by simp [byteDraws, hb]
  rw [step_hostOp hs hop, hostOp, hdraws]
  rfl

theorem hostOp_writeIlen_of_idle {s : State} (hb : s.status.busy = false) (w : Word) :
    hostOp (.writeReg .ilen w) s = s.withIlen w := by
  simp [hostOp, writeRegister, hb]

theorem hostOp_writeIbuf_of_idle {s : State} (hb : s.status.busy = false) (i : Nat) (b : Byte) :
    hostOp (.writeByte (.ibuf i) b) s = s.withIbufByte i b := by
  simp [hostOp, writeBufferByte, hb]

/-- A byte write of an idle block at `IBUF[i]` stores the byte (20_memory.md R41). -/
theorem step_writeIbuf_of_idle {s : State} {i : Nat} {b : Byte} {rest : List Turn} (hcap : s.inCap ≤ 65535)
    (hi : i < s.inCap) (hb : s.status.busy = false)
    (hs : s.schedule = .host (.write (BitVec.ofNat 18 (0x10000 + i)) (.byte b)) :: rest) :
    step s = .next ((s.withSchedule rest).withIbufByte i b) := by
  have hop : resolve s.inCap (.write (BitVec.ofNat 18 (0x10000 + i)) (.byte b)) = some (.writeByte (.ibuf i) b) := by
    rw [resolve, byteAt_ibufOffset hcap hi, Option.map_some]
  rw [step_hostOp hs hop, hostOp_writeIbuf_of_idle (s := s.withSchedule rest) hb]

/-- Settles O8: the five registers, the two register writes, and the two buffers. -/
theorem hostPrimitivesWhileIdle : Obligations.HostPrimitivesWhileIdle := by
  intro s rest hcap hb
  refine ⟨fun off v hmem hs => ?_, fun w hs => ?_, fun w hs => ?_, fun i hi hs => ?_, fun i b hi hs => ?_,
    fun i hi hs => ?_⟩
  · simp only [List.mem_cons, Prod.mk.injEq, List.not_mem_nil, or_false] at hmem
    rcases hmem with ⟨rfl, rfl⟩ | ⟨rfl, rfl⟩ | ⟨rfl, rfl⟩ | ⟨rfl, rfl⟩ | ⟨rfl, rfl⟩
    · exact step_readReg_of_idle hb .cmd hs
    · exact step_readReg_of_idle hb .status hs
    · exact step_readReg_of_idle hb .ilen hs
    · rw [step_readReg_of_idle hb .olen hs, regValue_olen_of_idle hb]
      rfl
    · exact step_readReg_of_idle hb .cap hs
  · rw [step_hostOp hs (op := .writeReg .cmd w) rfl, hostOp_writeCmd_of_idle (s := s.withSchedule rest) hb]
  · rw [step_hostOp hs (op := .writeReg .ilen w) rfl, hostOp_writeIlen_of_idle (s := s.withSchedule rest) hb]
    rfl
  · rw [step_readByte_of_idle hb hs (byteAt_ibufOffset hcap.2 hi), byteValue_ibuf_of_idle hb]
    rfl
  · refine ⟨_, step_writeIbuf_of_idle hcap.2 hi hb hs, fun j => ?_, rfl, rfl, rfl, rfl, fun _ => rfl,
      ⟨rfl, rfl, rfl, rfl, rfl, rfl⟩⟩
    rw [ibufByte_withIbufByte, ibufByte_withSchedule]
    exact if_congr eq_comm rfl rfl
  · rw [step_readByte_of_idle hb hs (byteAt_obufOffset hcap.2 hi), byteValue_obuf_of_idle hb]
    rfl

/-- An access is refused exactly when it has no meaning (20_memory.md R47). -/
theorem hostAccess_eq_refused_iff {a : Access} {s : State} :
    hostAccess a s = .refused .accessWithoutMeaning ↔ resolve s.inCap a = none := by
  rcases hostAccess_cases a s with ⟨op, hop, h⟩ | ⟨hnone, h⟩
  · exact iff_of_false (by simp [h]) (by simp [hop])
  · exact iff_of_true h hnone

/-- Settles O9: the accesses with a meaning are the listed ones. -/
theorem otherAccessesAreRefused : Obligations.OtherAccessesAreRefused := by
  intro s a rest hs
  rw [step_of_host hs, hostAccess_eq_refused_iff, ← resolve_isSome_iff, Option.not_isSome_iff_eq_none]
  rfl

/-- A read has the meaning of a register read or of a byte read (20_memory.md R41). -/
theorem resolve_read {n : Nat} {off : Offset} {width : Width} {op : HostOp}
    (h : resolve n (.read off width) = some op) : (∃ r, op = .readReg r) ∨ ∃ p, op = .readByte p := by
  cases width with
  | byte =>
    obtain ⟨p, -, rfl⟩ := Option.map_eq_some_iff.1 h
    exact .inr ⟨p, rfl⟩
  | half => cases h
  | word =>
    obtain ⟨r, -, rfl⟩ := Option.map_eq_some_iff.1 h
    exact .inl ⟨r, rfl⟩

theorem sameBlock_answered_withSchedule (s : State) (turns : List Turn) (d : PortData) (drawn : Nat) :
    SameBlock s ((s.withSchedule turns).answered d drawn) :=
  ⟨rfl, rfl, rfl, rfl, rfl, rfl, fun _ => rfl, fun _ => rfl⟩

/-- A host operation neither reads nor writes the turns still to come. -/
theorem hostOp_withSchedule (op : HostOp) (s : State) (turns : List Turn) :
    hostOp op (s.withSchedule turns) = (hostOp op s).withSchedule turns := by
  cases op with
  | readReg r => rfl
  | readByte p => rfl
  | writeReg r w =>
    cases r with
    | cmd => exact (apply_ite (State.withSchedule turns) _ s (acceptCommand w s)).symm
    | ilen => exact (apply_ite (State.withSchedule turns) _ s (s.withIlen w)).symm
    | status | olen | cap => rfl
  | writeByte p b =>
    cases p with
    | ibuf i => exact (apply_ite (State.withSchedule turns) _ s (s.withIbufByte i b)).symm
    | obuf i => rfl

/-- The same access at two turns is its one meaning applied twice: no turn changes the address map. -/
theorem runTurnsOf_host_twice {s t : State} {a : Access} {rest : List Turn}
    (hs : s.schedule = .host a :: .host a :: rest) (h : runTurnsOf 2 s = .next t) :
    ∃ op, resolve s.inCap a = some op ∧ t = (hostOp op (hostOp op s)).withSchedule rest := by
  obtain ⟨u, hu, hrun⟩ := exists_step_of_runTurnsOf_succ h
  obtain ⟨v, hv, hend⟩ := exists_step_of_runTurnsOf_succ hrun
  cases hend
  have hcap : u.inCap = s.inCap := inCap_congr (step_parameters hu).1
  obtain ⟨op, hop, rfl⟩ := step_host_inv hs hu
  obtain ⟨op', hop', rfl⟩ := step_host_inv (hostOp_schedule op _) hv
  rw [hcap, hop] at hop'
  cases hop'
  exact ⟨op, hop, by simp only [hostOp_withSchedule, withSchedule_withSchedule]⟩

theorem regValue_answered_of_idle {s : State} (hb : s.status.busy = false) (r : Reg) (d : PortData) (drawn : Nat) :
    regValue r (s.answered d drawn) = regValue r s := by
  cases r with
  | olen => exact (regValue_olen_of_idle (s := s.answered d drawn) hb).trans (regValue_olen_of_idle hb).symm
  | cmd | status | ilen | cap => rfl

theorem byteValue_answered_of_idle {s : State} (hb : s.status.busy = false) (p : BufferByte) (d : PortData)
    (drawn : Nat) : byteValue p (s.answered d drawn) = byteValue p s := by
  cases p <;> simp [byteValue, hb]

/-- A register write made again leaves what it wrote or is ignored again; a second `CMD` write is ignored because the
first one started a command (10_state.md R33). -/
theorem hostOp_writeReg_twice (r : Reg) (w : Word) (s : State) :
    hostOp (.writeReg r w) (hostOp (.writeReg r w) s) = hostOp (.writeReg r w) s := by
  cases hb : s.status.busy with
  | true => rw [hostOp_writeReg_of_busy hb, hostOp_writeReg_of_busy hb]
  | false =>
    cases r with
    | cmd =>
      rw [hostOp_writeCmd_of_idle hb]
      exact hostOp_writeReg_of_busy rfl .cmd w
    | ilen =>
      rw [hostOp_writeIlen_of_idle hb]
      exact hostOp_writeIlen_of_idle (s := s.withIlen w) hb w
    | status | olen | cap => rfl

/-- A byte written again is the byte written once, or is ignored again. -/
theorem hostOp_writeByte_twice (p : BufferByte) (b : Byte) (s : State) :
    hostOp (.writeByte p b) (hostOp (.writeByte p b) s) = hostOp (.writeByte p b) s := by
  cases hb : s.status.busy with
  | true => rw [hostOp_writeByte_of_busy hb, hostOp_writeByte_of_busy hb]
  | false =>
    cases p with
    | ibuf i =>
      rw [hostOp_writeIbuf_of_idle hb, hostOp_writeIbuf_of_idle (s := s.withIbufByte i b) hb]
      simp only [State.withIbufByte, write_write]
    | obuf i => rfl

/-- Settles O10: a read only answers, with a value that the answer does not change, and a write made again changes
nothing. The premise on the offset is not used: a second `CMD` write is ignored (10_state.md R33). -/
theorem readsHaveNoSideEffect : Obligations.ReadsHaveNoSideEffect := by
  refine ⟨fun s t off n rest hs h => ?_, fun s t off n rest hb hs h => ?_, fun s t off d rest _ hs h => ?_⟩
  · obtain ⟨op, hop, rfl⟩ := step_host_inv hs h
    rcases resolve_read hop with ⟨r, rfl⟩ | ⟨p, rfl⟩
    · exact ⟨sameBlock_answered_withSchedule s rest _ _, rfl, _, rfl⟩
    · exact ⟨sameBlock_answered_withSchedule s rest _ _, rfl, _, rfl⟩
  · obtain ⟨op, hop, rfl⟩ := runTurnsOf_host_twice hs h
    rcases resolve_read hop with ⟨r, rfl⟩ | ⟨p, rfl⟩
    · exact ⟨.word (regValue r s), by simp [hostOp, regValue_answered_of_idle hb]⟩
    · exact ⟨.byte (byteValue p s), by simp [hostOp, byteValue_answered_of_idle hb]⟩
  · obtain ⟨op, hop, rfl⟩ := runTurnsOf_host_twice hs h
    have htwice : hostOp op (hostOp op s) = hostOp op s := by
      rcases resolve_write hop with ⟨r, w, rfl⟩ | ⟨p, b, rfl⟩
      · exact hostOp_writeReg_twice r w s
      · exact hostOp_writeByte_twice p b s
    rw [htwice, ← hostOp_withSchedule]
    exact step_hostOp rfl hop

end Sys2Proof.Machine
end

section
/-! PROOF. The words that name a command, and what the decoder answers on the others (30_encoding.md R60 to R63). -/

namespace Sys2Proof.Machine

/-- Everything the opcode map can answer: a command from 0x01 to 0x0B, and no command elsewhere (30_encoding.md R62). -/
theorem opcodeMap_cases (opc : BitVec 8) :
    ((0x01 ≤ opc.toNat ∧ opc.toNat ≤ 0x0B) ∧ ∃ i, opcodeMap opc = .command i) ∨
    (¬(0x01 ≤ opc.toNat ∧ opc.toNat ≤ 0x0B) ∧ opcodeMap opc = .illegal .unknownOpcode) := by
  by_cases h : 0x01 ≤ opc.toNat ∧ opc.toNat ≤ 0x0B
  · refine .inl ⟨h, ?_⟩
    obtain ⟨hlow, hhigh⟩ := h
    unfold opcodeMap
    interval_cases opc.toNat <;> exact ⟨_, rfl⟩
  · refine .inr ⟨h, ?_⟩
    unfold opcodeMap
    split
    case h_12 => rfl
    all_goals omega

theorem decode_of_rsvField_ne_zero {w : Word} (h : rsvField w ≠ 0) : decode w = .illegal .reservedNotZero := if_pos h

theorem decode_of_rsvField_eq_zero {w : Word} (h : rsvField w = 0) : decode w = opcodeMap (opcField w) :=
  if_neg (not_not.2 h)

/-- The two checks of R60 and R61, on the fields of the word. -/
theorem wordWellFormed_iff {w : Word} :
    wordWellFormed w = true ↔ rsvField w = 0 ∧ 0x01 ≤ (opcField w).toNat ∧ (opcField w).toNat ≤ 0x0B := by
  have hrsv : (rsvField w).toNat = w.toNat / 256 := by
    simp only [rsvField, BitVec.extractLsb'_toNat, Nat.shiftRight_eq_div_pow]
    omega
  have hopc : (opcField w).toNat = w.toNat % 256 := by
    simp only [opcField, BitVec.extractLsb'_toNat, Nat.shiftRight_zero]
  simp only [wordWellFormed, rsvZero, opcAssigned, Bool.and_eq_true, beq_iff_eq, decide_eq_true_eq, ← hrsv, ← hopc,
    BitVec.toNat_eq]
  rfl

/-- The decoder finds a command exactly in a well-formed word (30_encoding.md R63). -/
theorem wordWellFormed_iff_exists_command {w : Word} : wordWellFormed w = true ↔ ∃ i, decode w = .command i := by
  rw [wordWellFormed_iff]
  by_cases hrsv : rsvField w = 0
  · rw [decode_of_rsvField_eq_zero hrsv]
    rcases opcodeMap_cases (opcField w) with ⟨hopc, hi⟩ | ⟨hopc, hillegal⟩
    · exact iff_of_true ⟨hrsv, hopc⟩ hi
    · exact iff_of_false (fun h => hopc h.2) (by simp [hillegal])
  · exact iff_of_false (fun h => hrsv h.1) (by simp [decode_of_rsvField_ne_zero hrsv])

theorem wordWellFormed_iff_exists_encode {w : Word} : wordWellFormed w = true ↔ ∃ i, w = encode i := by
  rw [wordWellFormed_iff_exists_command]
  exact exists_congr fun _ => decode_eq_command_iff

/-- An opcode outside 0x01 to 0x0B names no command (30_encoding.md R61 line 2). -/
theorem decode_of_unassigned {w : Word} (hrsv : rsvField w = 0)
    (hopc : opcField w = 0 ∨ 0x0C ≤ (opcField w).toNat) : decode w = .illegal .unknownOpcode := by
  rw [decode_of_rsvField_eq_zero hrsv]
  rcases opcodeMap_cases (opcField w) with ⟨hassigned, -⟩ | ⟨-, h⟩
  · rcases hopc with hzero | habove
    · simp [hzero] at hassigned
    · omega
  · exact h

/-- Settles O2: a command is decoded from its own word alone, and the two checks reject every other word. -/
theorem decodeAnswersExactlyTheEncodedWord : Obligations.DecodeAnswersExactlyTheEncodedWord :=
  ⟨fun i _ => decode_encode i, fun _ _ => decode_eq_command_iff, fun _ => wordWellFormed_iff_exists_encode,
    fun _ => decode_of_rsvField_ne_zero, fun _ => decode_of_unassigned⟩

/-- Settles O1: the words of R62 are the encoder's. -/
theorem elevenWordsDecode : Obligations.ElevenWordsDecode :=
  ⟨decode_encode .b2h, decode_encode .h2b, decode_encode .b64e, decode_encode .b64d, decode_encode .h2b64,
    decode_encode .b642h, decode_encode .b2url, decode_encode .url2b, decode_encode .b2ext, decode_encode .ext2b,
    decode_encode .xfer⟩

/-- A word that is no command's is illegal (30_encoding.md R63). -/
theorem exists_decode_eq_illegal {w : Word} (h : ∀ i, w ≠ encode i) : ∃ e, decode w = .illegal e := by
  cases hd : decode w with
  | illegal e => exact ⟨e, rfl⟩
  | command i => exact absurd (decode_eq_command_iff.1 hd) (h i)

/-- A `CMD` write of an idle block is the acceptance of the word (10_state.md R30). -/
theorem step_writeCmd_of_idle {s : State} {w : Word} {rest : List Turn} (hb : s.status.busy = false)
    (hs : s.schedule = .host (wrReg .cmd w) :: rest) : step s = .next (acceptCommand w (s.withSchedule rest)) := by
  rw [step_hostOp hs (op := .writeReg .cmd w) rfl, hostOp_writeCmd_of_idle (s := s.withSchedule rest) hb]

/-- What a host reads of `STATUS` after an illegal word (30_encoding.md R63). -/
theorem statusWord_failed_illegalCommand : statusWord (.failed .illegalCommand) = 0x00000306 := by decide

/-- Settles O3: the word is accepted whatever it is, and the decoder's rejection is the failure commit. -/
theorem illegalWordCompletesWithIllegalCommand : Obligations.IllegalWordCompletesWithIllegalCommand := by
  intro s w rest hb hw hs
  obtain ⟨e, he⟩ := exists_decode_eq_illegal hw
  have haccept := step_writeCmd_of_idle hb hs
  have hfail : step (acceptCommand w (s.withSchedule (.engine :: rest))) =
      .next (failureCommit .illegalCommand ((acceptCommand w s).withSchedule rest)) :=
    step_of_illegal (.inr ⟨rest, rfl⟩) rfl he
  exact ⟨_, (runTurnsOf_succ 1 haccept).trans (runTurnsOf_succ 0 hfail), rfl, rfl, statusWord_failed_illegalCommand,
    rfl, rfl, fun _ => rfl, obufView_failureCommit _ _, rfl⟩

end Sys2Proof.Machine
end

section
/-! PROOF. The host script on an idle block: `LOADB` and `RUN` (30_encoding.md R71). -/

namespace Sys2Proof.Machine

/-- The bytes of a sequence stored in `IBUF` at index `k` upward, as the `WRB` lines of `wrbFrom k` store them. -/
def State.withIbufBytes (k : Nat) (bs : List Byte) (s : State) : State := { s with ibuf := s.ibuf.writeAll k bs }

theorem withIbufBytes_nil (k : Nat) (s : State) : s.withIbufBytes k [] = s := rfl

theorem withIbufBytes_cons (k : Nat) (b : Byte) (bs : List Byte) (s : State) :
    s.withIbufBytes k (b :: bs) = (s.withIbufByte k b).withIbufBytes (k + 1) bs := rfl

theorem ibufByte_withIbufBytes_inside (bs : List Byte) (s : State) {i : Nat} (h : i < bs.length) :
    (s.withIbufBytes 0 bs).ibufByte i = bs[i] := by
  simp [State.ibufByte, State.withIbufBytes, read?_writeAll_inside _ _ h]

theorem ibufByte_withIbufBytes_outside (bs : List Byte) (s : State) {i : Nat} (h : bs.length ≤ i) :
    (s.withIbufBytes 0 bs).ibufByte i = s.ibufByte i := by
  simp [State.ibufByte, State.withIbufBytes, read?_writeAll_outside _ _ h]

/-- The `WRB` lines of an idle block store their bytes one after the other, and take their turns alone. -/
theorem runTurnsOf_wrbFrom (n : Nat) {bs : List Byte} {k : Nat} {s : State} {rest : List Turn}
    (hcap : s.inCap ≤ 65535) (hb : s.status.busy = false) (hfits : k + bs.length ≤ s.inCap)
    (hs : s.schedule = (wrbFrom k bs).map .host ++ rest) :
    runTurnsOf (bs.length + n) s = runTurnsOf n ((s.withSchedule rest).withIbufBytes k bs) := by
  induction bs generalizing k s with
  | nil =>
    have hs : s.schedule = rest := hs
    rw [List.length_nil, Nat.zero_add, withIbufBytes_nil, ← hs, withSchedule_self]
  | cons b bs ih =>
    rw [List.length_cons] at hfits
    have hwrite := step_writeIbuf_of_idle hcap (by omega) hb hs
    rw [List.length_cons, Nat.add_right_comm, runTurnsOf_succ _ hwrite, withIbufBytes_cons]
    have hfits' : k + 1 + bs.length ≤ s.inCap := by omega
    exact ih (s := (s.withSchedule _).withIbufByte k b) hcap hb hfits' rfl

/-- An `ILEN` write of an idle block stores the length (20_memory.md R41). -/
theorem step_writeIlen_of_idle {s : State} {w : Word} {rest : List Turn} (hb : s.status.busy = false)
    (hs : s.schedule = .host (wrReg .ilen w) :: rest) : step s = .next ((s.withSchedule rest).withIlen w) := by
  rw [step_hostOp hs (op := .writeReg .ilen w) rfl, hostOp_writeIlen_of_idle (s := s.withSchedule rest) hb]

/-- `LOADB` of an idle block stores the bytes and then the length. -/
theorem runTurnsOf_loadb {s : State} {bs : List Byte} {rest : List Turn} (hcap : s.inCap ≤ 65535)
    (hb : s.status.busy = false) (hfits : bs.length ≤ s.inCap) (hs : s.schedule = (loadb bs).map .host ++ rest) :
    runTurnsOf (bs.length + 1) s =
      .next (((s.withSchedule rest).withIbufBytes 0 bs).withIlen (BitVec.ofNat 32 bs.length)) := by
  rw [loadb, List.map_append, List.append_assoc] at hs
  rw [runTurnsOf_wrbFrom 1 hcap hb (by omega) hs]
  exact runTurnsOf_succ 0 (step_writeIlen_of_idle (s := (s.withSchedule _).withIbufBytes 0 bs) hb rfl)

/-- The input of a block whose `IBUF` begins with a sequence and whose `ILEN` is its length. -/
theorem input_withIbufBytes_withIlen {bs : List Byte} (s : State) (h : bs.length < 2 ^ 32) :
    ((s.withIbufBytes 0 bs).withIlen (BitVec.ofNat 32 bs.length)).input = bs := by
  apply List.ext_getElem
  · rw [input_length, withIlen_ilen, BitVec.toNat_ofNat, Nat.mod_eq_of_lt h]
  · intro i _ hi
    rw [input_getElem, ibufByte_withIlen, ibufByte_withIbufBytes_inside bs s hi]

/-- Settles O50: the input by the bytes stored and the length, and the rest as the two kinds of write leave it. -/
theorem loadbPlacesTheInput : Obligations.LoadbPlacesTheInput := by
  rintro s bs rest ⟨-, hcap⟩ hb hfits hs
  exact ⟨_, runTurnsOf_loadb hcap hb hfits hs, input_withIbufBytes_withIlen _ (by omega),
    fun k hk => ibufByte_withIbufBytes_outside bs (s.withSchedule rest) hk, rfl, rfl, rfl, fun _ => rfl,
    ⟨rfl, rfl, rfl, rfl, rfl, rfl⟩⟩

/-- `RD STATUS` returns the word of `STATUS`, whether or not a command is in flight (10_state.md R34). -/
theorem step_readStatus {s : State} {rest : List Turn} (hs : s.schedule = .host (rdReg .status) :: rest) :
    step s = .next ((s.withSchedule rest).answered (.word (statusWord s.status)) 0) :=
  step_hostOp hs (resolve_readReg _ .status)

/-- The block after `polls` reads of `STATUS` that each returned 0x00000001, with `turns` still to come. -/
def State.polled (polls : Nat) (turns : List Turn) (s : State) : State :=
  { s with schedule := turns, port := List.replicate polls (.word 0x00000001) ++ s.port }

theorem polled_zero (turns : List Turn) (s : State) : s.polled 0 turns = s.withSchedule turns := rfl

/-- The first of the polls, and the others after it. -/
theorem polled_succ (polls : Nat) (turns : List Turn) (s : State) :
    s.polled (polls + 1) turns = (s.answered (.word 0x00000001) 0).polled polls turns := by
  rw [State.polled, List.replicate_succ', List.append_assoc]
  rfl

/-- The polls of a command in flight each return 0x00000001 and change nothing else (10_state.md R31, R34). -/
theorem runTurnsOf_polls (polls n : Nat) {s : State} {rest : List Turn} (hstarted : s.status = .started)
    (hs : s.schedule = List.replicate polls (.host (rdReg .status)) ++ rest) :
    runTurnsOf (polls + n) s = runTurnsOf n (s.polled polls rest) := by
  induction polls generalizing s with
  | zero =>
    have hs : s.schedule = rest := hs
    rw [Nat.zero_add, polled_zero, ← hs, withSchedule_self]
  | succ polls ih =>
    have hpoll := step_readStatus hs
    rw [hstarted, statusWord_started] at hpoll
    rw [Nat.add_right_comm, runTurnsOf_succ _ hpoll, polled_succ]
    exact ih (s := (s.withSchedule _).answered _ 0) hstarted rfl

/-- Settles O51: the acceptance, the polls, the engine's turn on the word accepted, and the read of its report. -/
theorem runPollsUntilDone : Obligations.RunPollsUntilDone := by
  intro s i polls rest hb hs
  rw [runTurns, List.cons_append, List.append_assoc] at hs
  have hd (turns : List Turn) : decode ((acceptCommand (encode i) s).polled polls turns).cmd = .command i :=
    decode_encode i
  obtain ⟨u, hu, hc⟩ :=
    exists_completion ((acceptCommand (encode i) s).polled polls (.host (rdReg .status) :: rest))
  rw [completeCommand_of_command (hd _)] at hu
  have hengine :
      step ((acceptCommand (encode i) s).polled polls (.engine :: .host (rdReg .status) :: rest)) = .next u :=
    (step_of_command (.inr ⟨_, rfl⟩) rfl (hd _)).trans hu
  refine ⟨u, hu, ?_, hc.port, hc.busy, hc.done⟩
  calc runTurnsOf (polls + 3) s
      = runTurnsOf (polls + 2) (acceptCommand (encode i) (s.withSchedule _)) :=
        runTurnsOf_succ _ (step_writeCmd_of_idle hb hs)
    _ = runTurnsOf 2 ((acceptCommand (encode i) s).polled polls _) := runTurnsOf_polls polls 2 rfl rfl
    _ = runTurnsOf 1 u := runTurnsOf_succ 1 hengine
    _ = .next ((u.withSchedule rest).answered (.word (statusWord u.status)) 0) :=
        runTurnsOf_succ 0 (step_readStatus hc.schedule)

end Sys2Proof.Machine
end

section
/-! PROOF. A conversion by its pseudocode's answer, and two conversions joined by `XFER` (10_state.md R32, 43_buffer.md
R131, 60_exceptions.md R142). -/

namespace Sys2Proof.Machine

theorem input_getElem? {s : State} {i : Nat} (h : i < s.ilen.toNat) : s.input[i]? = some (s.ibufByte i) := by
  rw [List.getElem?_eq_getElem (by rwa [input_length]), input_getElem]

theorem result_getElem? {s : State} {i : Nat} (h : i < s.olen.toNat) : s.result[i]? = some (s.obufByte i) := by
  rw [List.getElem?_eq_getElem (by rwa [result_length]), result_getElem]

/-- A conversion of an input that does not fit (60_exceptions.md R142). -/
theorem exec_tooLong {i : Instr} {s : State} (hx : i ≠ .xfer) (h : s.inCap < s.ilen.toNat) :
    exec i s = .next (failureCommit .invalidArgument s) := by
  obtain ⟨f, hf⟩ := pseudocode_isSome (strict := s.strictTailBits) hx
  exact (exec_eq_convert hf).trans (convert_tooLong f h)

/-- A conversion whose pseudocode raises (60_exceptions.md R146). -/
theorem exec_raise {i : Instr} {s : State} {f : List Byte → Conversion} {e : ErrorClass}
    (hi : pseudocode s.strictTailBits i = some f) (hfits : s.ilen.toNat ≤ s.inCap) (hraise : f s.input = .raise e) :
    exec i s = .next (failureCommit e s) :=
  (exec_eq_convert hi).trans (convert_raise hfits hraise)

/-- A successful transfer makes the result the next input (43_buffer.md R131). -/
theorem input_xferCommit (s : State) : (xferCommit s).input = s.result := by
  apply List.ext_getElem
  · rw [input_length, result_length, xferCommit_ilen]
  · intro i hi _
    rw [input_length, xferCommit_ilen] at hi
    rw [input_getElem, result_getElem, ibufByte_xferCommit_inside s hi]

/-- A conversion started on a block whose input fits, with the result its pseudocode gives. -/
theorem runCommand_out {i : Instr} {s : State} {f : List Byte → Conversion} {out : List Byte}
    (hi : pseudocode s.strictTailBits i = some f) (hfits : s.ilen.toNat ≤ s.inCap) (hout : f s.input = .out out) :
    runCommand i s = .next (successCommit out (acceptCommand (encode i) s)) :=
  (exec_eq_convert (s := acceptCommand (encode i) s) hi).trans (convert_out hfits hout)

theorem runCommand_xfer {s : State} (hfits : s.olen.toNat ≤ s.inCap) :
    runCommand .xfer s = .next (xferCommit (acceptCommand (encode .xfer) s)) :=
  execXfer_fits hfits

/-- Two conversions joined by `XFER`, when the result between them fits `IBUF`: the block delivers what the second
pseudocode makes of the first one's result. -/
theorem runCommand_xfer_runCommand {i j : Instr} {s : State} {f g : List Byte → Conversion} {mid out : List Byte}
    (hcap : s.capInRange) (hi : pseudocode s.strictTailBits i = some f) (hj : pseudocode s.strictTailBits j = some g)
    (hfits : s.ilen.toNat ≤ s.inCap) (hmid : f s.input = .out mid) (hmidFits : mid.length ≤ s.inCap)
    (hout : g mid = .out out) :
    ∃ t u v, runCommand i s = .next t ∧ runCommand .xfer t = .next u ∧ runCommand j u = .next v ∧
      v.status = .succeeded ∧ v.result = out := by
  have hmidWord : mid.length < 2 ^ 32 := by have := hcap.2; omega
  have houtWord : out.length < 2 ^ 32 := by have := pseudocode_length hj hout; have := hcap.2; omega
  have holen : (successCommit mid (acceptCommand (encode i) s)).olen.toNat ≤ s.inCap :=
    (toNat_olen_successCommit _ hmidWord).trans_le hmidFits
  have hinput :
      (xferCommit (acceptCommand (encode .xfer) (successCommit mid (acceptCommand (encode i) s)))).input = mid := by
    rw [input_xferCommit, result_acceptCommand, result_successCommit _ _ hmidWord]
  exact ⟨_, _, _, runCommand_out hi hfits hmid, runCommand_xfer holen,
    runCommand_out hj holen ((congrArg g hinput).trans hout), rfl, result_successCommit out _ houtWord⟩

end Sys2Proof.Machine
end

section
/-! PROOF. The hex codec: what `B2H` and `H2B` write, and their round trip (40_hex.md R80 to R83). -/

namespace Sys2Proof.Machine

theorem toNat_highNibble (b : Byte) : (b.extractLsb' 4 4).toNat = b.toNat / 16 := by
  simp only [BitVec.extractLsb'_toNat, Nat.shiftRight_eq_div_pow]
  omega

theorem toNat_lowNibble (b : Byte) : (b.extractLsb' 0 4).toNat = b.toNat % 16 := by
  rw [BitVec.extractLsb'_toNat, Nat.shiftRight_zero]

/-- The two nibbles do not overlap (40_hex.md R82). -/
theorem toNat_joinNibbles (hi lo : Nibble) : (joinNibbles hi lo).toNat = hi.toNat * 16 + lo.toNat := by
  have hshift : (hi.setWidth 8 <<< 4).toNat = hi.toNat <<< 4 := by
    simp only [BitVec.toNat_shiftLeft, BitVec.toNat_setWidth, Nat.shiftLeft_eq]
    omega
  have hlo : (lo.setWidth 8).toNat = lo.toNat := by
    rw [BitVec.toNat_setWidth]
    omega
  rw [joinNibbles, BitVec.toNat_or, hshift, hlo, ← Nat.shiftLeft_add_eq_or_of_lt lo.isLt, Nat.shiftLeft_eq]

/-- A byte is its two nibbles (40_hex.md R81). -/
@[simp] theorem joinNibbles_nibbles (b : Byte) : joinNibbles (b.extractLsb' 4 4) (b.extractLsb' 0 4) = b := by
  apply BitVec.eq_of_toNat_eq
  rw [toNat_joinNibbles, toNat_highNibble, toNat_lowNibble]
  omega

@[simp] theorem highNibble_joinNibbles (hi lo : Nibble) : (joinNibbles hi lo).extractLsb' 4 4 = hi := by
  apply BitVec.eq_of_toNat_eq
  rw [toNat_highNibble, toNat_joinNibbles]
  omega

@[simp] theorem lowNibble_joinNibbles (hi lo : Nibble) : (joinNibbles hi lo).extractLsb' 0 4 = lo := by
  apply BitVec.eq_of_toNat_eq
  rw [toNat_lowNibble, toNat_joinNibbles]
  omega

/-- The digit written for what a digit stands for is the digit in lower case (10_state.md R26, R28). -/
theorem hexd_of_hexInv {c : Byte} {v : Nibble} (h : hexInv c = some v) : hexd v = lowerDigit c := by
  have hall : ∀ c : Byte, ∀ v ∈ hexInv c, hexd v = lowerDigit c := by decide
  exact hall c v h

/-- `B2H` by position: byte `k` gives the characters `2k` and `2k+1` (40_hex.md R81). -/
theorem bytesToHex_getElem? (bs : List Byte) (k : Nat) :
    (bytesToHex bs)[2 * k]? = bs[k]?.map (fun b => hexd (b.extractLsb' 4 4)) ∧
      (bytesToHex bs)[2 * k + 1]? = bs[k]?.map (fun b => hexd (b.extractLsb' 0 4)) := by
  induction bs generalizing k with
  | nil => simp [bytesToHex]
  | cons b bs ih =>
    cases k with
    | zero => simp [bytesToHex]
    | succ k => simpa [bytesToHex, Nat.mul_succ] using ih k

/-- `s` is a sequence of digit pairs, and `out` holds one byte for each (40_hex.md R82). -/
inductive DigitPairs : (s out : List Byte) → Prop
  | nil : DigitPairs [] []
  | cons {c0 c1 : Byte} {hi lo : Nibble} {cs out : List Byte} (high : hexInv c0 = some hi) (low : hexInv c1 = some lo)
      (rest : DigitPairs cs out) : DigitPairs (c0 :: c1 :: cs) (joinNibbles hi lo :: out)

theorem DigitPairs.length {s out : List Byte} (h : DigitPairs s out) : s.length = 2 * out.length := by
  induction h with
  | nil => rfl
  | cons _ _ _ ih => simp only [List.length_cons, ih]; omega

/-- The bytes of a hex string are the loop's result (40_hex.md R82). -/
theorem DigitPairs.hexToBytes_eq {s out : List Byte} (h : DigitPairs s out) : hexToBytes s = .out out := by
  have hpairs : hexPairs s = .out out := by
    induction h with
    | nil => rfl
    | cons high low _ ih => simp [hexPairs, high, low, ih, Conversion.append]
  have heven : ¬s.length % 2 ≠ 0 := by rw [h.length]; omega
  rw [hexToBytes, if_neg heven, hpairs]

/-- Byte `k` joins what the characters `2k` and `2k+1` stand for. -/
theorem DigitPairs.getElem? {s out : List Byte} (h : DigitPairs s out) {k : Nat} (hk : k < out.length) :
    ∃ hi lo, s[2 * k]?.bind hexInv = some hi ∧ s[2 * k + 1]?.bind hexInv = some lo ∧
      out[k]? = some (joinNibbles hi lo) := by
  induction h generalizing k with
  | nil => cases hk
  | @cons c0 c1 hi lo cs out high low _ ih =>
    cases k with
    | zero => exact ⟨hi, lo, high, low, rfl⟩
    | succ k => simpa [Nat.mul_succ] using ih (Nat.lt_of_succ_lt_succ hk)

theorem digitPairs_bytesToHex (bs : List Byte) : DigitPairs (bytesToHex bs) bs := by
  induction bs with
  | nil => exact .nil
  | cons b bs ih =>
    simpa [bytesToHex] using DigitPairs.cons (hexInv_hexd (b.extractLsb' 4 4)) (hexInv_hexd (b.extractLsb' 0 4)) ih

/-- The bytes read from a hex string are written as the string in lower case (40_hex.md R83). -/
theorem DigitPairs.bytesToHex_eq {s out : List Byte} (h : DigitPairs s out) : bytesToHex out = s.map lowerDigit := by
  induction h with
  | nil => rfl
  | cons high low _ ih => simp [bytesToHex, ih, hexd_of_hexInv high, hexd_of_hexInv low]

theorem isHexString_cons_cons (c0 c1 : Byte) (cs : List Byte) :
    isHexString (c0 :: c1 :: cs) = ((hexInv c0).isSome && (hexInv c1).isSome && isHexString cs) := by
  have hlen : (cs.length + 1 + 1) % 2 = cs.length % 2 := by omega
  rw [Bool.eq_iff_iff]
  simp [isHexString, hlen, and_assoc, and_left_comm]

/-- A hex string is a sequence of digit pairs, and the loop stops with an error on every other input (30_encoding.md
R65). -/
theorem hexPairs_cases (s : List Byte) :
    (isHexString s = true ∧ ∃ out, DigitPairs s out) ∨
    (isHexString s = false ∧ hexPairs s = .raise .invalidEncoding) := by
  induction s using hexPairs.induct with
  | case1 => exact .inl ⟨rfl, [], .nil⟩
  | case2 c => exact .inr ⟨rfl, rfl⟩
  | case3 c0 c1 cs hi lo low high ih =>
    rcases ih with ⟨hs, out, hout⟩ | ⟨hs, hraise⟩
    · exact .inl ⟨by simp [isHexString_cons_cons, high, low, hs], _, .cons high low hout⟩
    · exact .inr ⟨by simp [isHexString_cons_cons, hs], by simp [hexPairs, high, low, hraise, Conversion.append]⟩
  | case4 c0 c1 cs hn =>
    have hdigits : ((hexInv c0).isSome && (hexInv c1).isSome) = false := by
      refine Bool.eq_false_iff.2 fun hsome => ?_
      obtain ⟨high, low⟩ := Bool.and_eq_true_iff.1 hsome
      exact hn _ _ (Option.some_get high).symm (Option.some_get low).symm
    exact .inr ⟨by rw [isHexString_cons_cons, hdigits, Bool.false_and], by simp only [hexPairs]⟩

theorem exists_digitPairs {s : List Byte} (h : isHexString s = true) : ∃ out, DigitPairs s out := by
  rcases hexPairs_cases s with ⟨-, hout⟩ | ⟨hfalse, -⟩
  · exact hout
  · simp [h] at hfalse

/-- An odd length is refused before the loop, and the loop would refuse it with the same error (40_hex.md R82). -/
theorem hexToBytes_of_not_isHexString {s : List Byte} (h : isHexString s = false) :
    hexToBytes s = .raise .invalidEncoding := by
  rcases hexPairs_cases s with ⟨htrue, -⟩ | ⟨-, hraise⟩
  · simp [h] at htrue
  · rw [hexToBytes, hraise, ite_self]

/-- Settles O26: the success commit of the digits, which stand by position. -/
theorem b2hWritesTwoDigitsPerByte : Obligations.B2hWritesTwoDigitsPerByte := by
  refine ⟨rfl, fun s hcap => ⟨fun hfits => ?_, exec_tooLong (by decide)⟩⟩
  obtain ⟨t, hexec, holen, hresult, hstatus, hframe⟩ := successCommit_spec .b2h s _ _ hcap rfl hfits rfl
  rw [bytesToHex_length, input_length] at holen
  refine ⟨t, hexec, hstatus, holen, fun k hk => ?_, hframe⟩
  obtain ⟨high, low⟩ := bytesToHex_getElem? s.input k
  rw [← hresult, input_getElem? hk, result_getElem? (by omega)] at high low
  rw [← toNat_highNibble, ← toNat_lowNibble, BitVec.ofNat_toNat, BitVec.ofNat_toNat, BitVec.setWidth_eq,
    BitVec.setWidth_eq]
  exact ⟨Option.some.inj high, Option.some.inj low⟩

/-- Settles O27: a hex string is a sequence of digit pairs, whose bytes are committed. -/
theorem h2bReadsDigitPairs : Obligations.H2bReadsDigitPairs := by
  refine ⟨rfl, fun s hcap => ⟨fun hfits hhex => ?_, fun hfits hhex => ?_, exec_tooLong (by decide)⟩⟩
  · obtain ⟨out, hout⟩ := exists_digitPairs hhex
    obtain ⟨t, hexec, holen, hresult, hstatus, hframe⟩ :=
      successCommit_spec .h2b s _ _ hcap rfl hfits hout.hexToBytes_eq
    have hlen : s.ilen.toNat = 2 * out.length := input_length s ▸ hout.length
    refine ⟨t, hexec, hstatus, by omega, fun k hk => ?_, hframe⟩
    obtain ⟨hi, lo, high, low, hbyte⟩ := hout.getElem? (k := k) (by omega)
    rw [input_getElem? (by omega)] at high low
    rw [← hresult, result_getElem? (by omega)] at hbyte
    exact ⟨hi, lo, high, low, by rw [Option.some.inj hbyte, toNat_joinNibbles]⟩
  · exact exec_raise rfl hfits (hexToBytes_of_not_isHexString hhex)

/-- Settles O38: both directions on sequences by the digit pairs, and the block by the chain over `XFER`. -/
theorem hexRoundTrip : Obligations.HexRoundTrip := by
  refine ⟨fun b => (digitPairs_bytesToHex b).hexToBytes_eq, fun t ht => ?_, fun s hcap hfits => ?_⟩
  · obtain ⟨b, hb⟩ := exists_digitPairs ht
    exact ⟨b, hb.hexToBytes_eq, hb.bytesToHex_eq⟩
  · have hmidFits : (bytesToHex s.input).length ≤ s.inCap := by rwa [bytesToHex_length, input_length]
    exact runCommand_xfer_runCommand hcap (i := .b2h) (j := .h2b) rfl rfl (by omega) rfl hmidFits
      (digitPairs_bytesToHex s.input).hexToBytes_eq

end Sys2Proof.Machine
end

section
/-! PROOF. The 24-bit group as three bytes and as four sextets (41_base64.md R90, R91, R94, R97). -/

namespace Sys2Proof.Machine

/-- Two fields side by side do not overlap. -/
theorem toNat_fields {m n w k : Nat} (hi : BitVec m) (lo : BitVec n) (hhi : m + k ≤ w) (hlo : n ≤ k) :
    (hi.setWidth w <<< k ||| lo.setWidth w).toNat = hi.toNat * 2 ^ k + lo.toNat := by
  have hlow : lo.toNat < 2 ^ k := lo.isLt.trans_le (Nat.pow_le_pow_right (by decide) hlo)
  have hhigh : hi.toNat * 2 ^ k < 2 ^ w :=
    calc hi.toNat * 2 ^ k < 2 ^ m * 2 ^ k := Nat.mul_lt_mul_of_pos_right hi.isLt (Nat.two_pow_pos k)
      _ = 2 ^ (m + k) := (Nat.pow_add 2 m k).symm
      _ ≤ 2 ^ w := Nat.pow_le_pow_right (by decide) hhi
  rw [BitVec.toNat_or, BitVec.toNat_shiftLeft, BitVec.toNat_setWidth_of_le (by omega),
    BitVec.toNat_setWidth_of_le (by omega), Nat.shiftLeft_eq, Nat.mod_eq_of_lt hhigh, ← Nat.shiftLeft_eq,
    Nat.shiftLeft_add_eq_or_of_lt hlow]

theorem toNat_group16 (a b : Byte) : (group16 a b).toNat = a.toNat * 2 ^ 8 + b.toNat :=
  toNat_fields a b (by decide) (by decide)

/-- Byte 0 of a group is its most significant one (20_memory.md R44). -/
theorem toNat_group24 (a b c : Byte) :
    (group24 a b c).toNat = a.toNat * 2 ^ 16 + b.toNat * 2 ^ 8 + c.toNat := by
  have hbc : b.setWidth 24 <<< 8 ||| c.setWidth 24 = (group16 b c).setWidth 24 := by
    rw [← BitVec.toNat_inj, toNat_fields b c (by decide) (by decide), BitVec.toNat_setWidth_of_le (by decide),
      toNat_group16]
  rw [group24, BitVec.or_assoc, hbc, toNat_fields _ _ (by decide) (by decide), toNat_group16, Nat.add_assoc]

/-- Sextet `q` of the window of three bytes, sextet 0 in bits 23:18 (41_base64.md R90). -/
def windowSextet (a b c : Byte) (q : Nat) : Sextet := (group24 a b c).extractLsb' (18 - 6 * q) 6

theorem windowSextet_eq_ofNat (a b c : Byte) (q : Nat) :
    windowSextet a b c q =
      BitVec.ofNat 6 ((a.toNat * 2 ^ 16 + b.toNat * 2 ^ 8 + c.toNat) / 2 ^ (18 - 6 * q)) := by
  apply BitVec.eq_of_toNat_eq
  rw [windowSextet, BitVec.extractLsb'_toNat, toNat_group24, Nat.shiftRight_eq_div_pow, BitVec.toNat_ofNat]

theorem toNat_windowSextet (a b c : Byte) (q : Nat) :
    (windowSextet a b c q).toNat =
      (a.toNat * 2 ^ 16 + b.toNat * 2 ^ 8 + c.toNat) / 2 ^ (18 - 6 * q) % 64 := by
  rw [windowSextet_eq_ofNat, BitVec.toNat_ofNat]

theorem bytesToBase64_cons_cons_cons (a b c : Byte) (rest : List Byte) :
    bytesToBase64 (a :: b :: c :: rest) =
      std (windowSextet a b c 0) :: std (windowSextet a b c 1) :: std (windowSextet a b c 2) ::
        std (windowSextet a b c 3) :: bytesToBase64 rest := rfl

/-- A remainder of one byte is a window with two zero bytes appended (41_base64.md R91). -/
theorem bytesToBase64_one (a : Byte) :
    bytesToBase64 [a] = [std (windowSextet a 0 0 0), std (windowSextet a 0 0 1), padChar, padChar] := by
  have hgroup : group24 a 0 0 = a.setWidth 24 <<< 16 := by simp [group24]
  rw [windowSextet, windowSextet, hgroup]
  rfl

/-- A remainder of two bytes is a window with one zero byte appended (41_base64.md R91). -/
theorem bytesToBase64_two (a b : Byte) :
    bytesToBase64 [a, b] =
      [std (windowSextet a b 0 0), std (windowSextet a b 0 1), std (windowSextet a b 0 2), padChar] := by
  have h0 : (group16 a b).extractLsb' 10 6 = windowSextet a b 0 0 := by
    apply BitVec.eq_of_toNat_eq
    rw [toNat_windowSextet, BitVec.extractLsb'_toNat, toNat_group16, Nat.shiftRight_eq_div_pow]
    omega
  have h1 : (group16 a b).extractLsb' 4 6 = windowSextet a b 0 1 := by
    apply BitVec.eq_of_toNat_eq
    rw [toNat_windowSextet, BitVec.extractLsb'_toNat, toNat_group16, Nat.shiftRight_eq_div_pow]
    omega
  have h2 : ((group16 a b).extractLsb' 0 4).setWidth 6 <<< 2 = windowSextet a b 0 2 := by
    have hzero : (0 : Byte).toNat = 0 := rfl
    apply BitVec.eq_of_toNat_eq
    rw [toNat_windowSextet, BitVec.toNat_shiftLeft, BitVec.toNat_setWidth, BitVec.extractLsb'_toNat, toNat_group16,
      Nat.shiftRight_zero, Nat.shiftLeft_eq, hzero]
    omega
  rw [← h0, ← h1, ← h2]
  rfl

theorem toNat_quantumByte0 (v0 v1 : Sextet) : (quantumByte0 v0 v1).toNat = v0.toNat * 2 ^ 2 + v1.toNat / 2 ^ 4 := by
  rw [quantumByte0, toNat_fields _ _ (by decide) (by decide), BitVec.extractLsb'_toNat, Nat.shiftRight_eq_div_pow]
  omega

theorem toNat_quantumByte1 (v1 v2 : Sextet) :
    (quantumByte1 v1 v2).toNat = v1.toNat % 2 ^ 4 * 2 ^ 4 + v2.toNat / 2 ^ 2 := by
  rw [quantumByte1, toNat_fields _ _ (by decide) (by decide), BitVec.extractLsb'_toNat, BitVec.extractLsb'_toNat,
    Nat.shiftRight_zero, Nat.shiftRight_eq_div_pow]
  omega

theorem toNat_quantumByte2 (v2 v3 : Sextet) : (quantumByte2 v2 v3).toNat = v2.toNat % 2 ^ 2 * 2 ^ 6 + v3.toNat := by
  rw [quantumByte2, toNat_fields _ _ (by decide) (by decide), BitVec.extractLsb'_toNat, Nat.shiftRight_zero]

/-- The three bytes of a window come back from its sextets (41_base64.md R98). -/
@[simp] theorem quantumByte0_windowSextet (a b c : Byte) :
    quantumByte0 (windowSextet a b c 0) (windowSextet a b c 1) = a := by
  apply BitVec.eq_of_toNat_eq
  rw [toNat_quantumByte0, toNat_windowSextet, toNat_windowSextet]
  omega

@[simp] theorem quantumByte1_windowSextet (a b c : Byte) :
    quantumByte1 (windowSextet a b c 1) (windowSextet a b c 2) = b := by
  apply BitVec.eq_of_toNat_eq
  rw [toNat_quantumByte1, toNat_windowSextet, toNat_windowSextet]
  omega

@[simp] theorem quantumByte2_windowSextet (a b c : Byte) :
    quantumByte2 (windowSextet a b c 2) (windowSextet a b c 3) = c := by
  apply BitVec.eq_of_toNat_eq
  rw [toNat_quantumByte2, toNat_windowSextet, toNat_windowSextet]
  omega

/-- The 24-bit value of four sextets, sextet 0 in bits 23:18 (41_base64.md R97). -/
def quantum24 (v0 v1 v2 v3 : Sextet) : Nat :=
  v0.toNat * 2 ^ 18 + v1.toNat * 2 ^ 12 + v2.toNat * 2 ^ 6 + v3.toNat

/-- The bytes of a quantum are those of its 24-bit value (41_base64.md R97). -/
theorem toNat_quantumBytes (v0 v1 v2 v3 : Sextet) :
    (quantumByte0 v0 v1).toNat = quantum24 v0 v1 v2 v3 / 2 ^ 16 % 256 ∧
      (quantumByte1 v1 v2).toNat = quantum24 v0 v1 v2 v3 / 2 ^ 8 % 256 ∧
      (quantumByte2 v2 v3).toNat = quantum24 v0 v1 v2 v3 % 256 := by
  rw [toNat_quantumByte0, toNat_quantumByte1, toNat_quantumByte2, quantum24]
  omega

/-- The four sextets of a quantum come back from its three bytes (41_base64.md R98). -/
theorem windowSextet_quantumBytes (v0 v1 v2 v3 : Sextet) :
    windowSextet (quantumByte0 v0 v1) (quantumByte1 v1 v2) (quantumByte2 v2 v3) 0 = v0 ∧
      windowSextet (quantumByte0 v0 v1) (quantumByte1 v1 v2) (quantumByte2 v2 v3) 1 = v1 ∧
      windowSextet (quantumByte0 v0 v1) (quantumByte1 v1 v2) (quantumByte2 v2 v3) 2 = v2 ∧
      windowSextet (quantumByte0 v0 v1) (quantumByte1 v1 v2) (quantumByte2 v2 v3) 3 = v3 := by
  simp only [← BitVec.toNat_inj, toNat_windowSextet, toNat_quantumByte0, toNat_quantumByte1, toNat_quantumByte2]
  omega

end Sys2Proof.Machine
end

section
/-! PROOF. The encoder by position: what `B64E` writes for each window (41_base64.md R90, R91). -/

namespace Sys2Proof.Machine

/-- Window `j` of a sequence as its sextets, bytes beyond the end taken as 0 (41_base64.md R91). -/
def sextetOfWindow (bs : List Byte) (j q : Nat) : Sextet :=
  windowSextet (bs.getD (3 * j) 0) (bs.getD (3 * j + 1) 0) (bs.getD (3 * j + 2) 0) q

/-- The encoder in the uniform form of 41_base64.md R91: window `j` with `r` real bytes gives `r + 1` characters of the
alphabet, then `=`. -/
theorem bytesToBase64_getElem? (bs : List Byte) {j q : Nat} (hj : j < (bs.length + 2) / 3) (hq : q < 4) :
    (bytesToBase64 bs)[4 * j + q]? =
      some (if q ≤ min 3 (bs.length - 3 * j) then std (sextetOfWindow bs j q) else padChar) := by
  induction bs using bytesToBase64.induct generalizing j with
  | case1 => simp at hj
  | case2 a =>
    obtain rfl : j = 0 := by simpa using hj
    rw [bytesToBase64_one]
    interval_cases q <;> rfl
  | case3 a b =>
    obtain rfl : j = 0 := by simpa using hj
    rw [bytesToBase64_two]
    interval_cases q <;> rfl
  | case4 a b c rest ih =>
    rw [bytesToBase64_cons_cons_cons]
    cases j with
    | zero =>
      have hreal : q ≤ min 3 ((a :: b :: c :: rest).length - 3 * 0) := by simp only [List.length_cons]; omega
      rw [if_pos hreal]
      interval_cases q <;> rfl
    | succ j =>
      have hrest : j < (rest.length + 2) / 3 := by simp only [List.length_cons] at hj; omega
      have hreal : (a :: b :: c :: rest).length - 3 * (j + 1) = rest.length - 3 * j := by
        simp only [List.length_cons]; omega
      rw [hreal]
      have hindex : 4 * (j + 1) + q = 4 * j + q + 4 := by omega
      rw [hindex]
      exact ih hrest

theorem input_getD {s : State} {k : Nat} (h : k < s.ilen.toNat) : s.input.getD k 0 = s.ibufByte k := by
  rw [List.getD_eq_getElem?_getD, input_getElem? h, Option.getD_some]

theorem toNat_input_getD (s : State) (k : Nat) : (s.input.getD k 0).toNat = windowByte s k := by
  rw [windowByte]
  split
  next h => rw [input_getD h]
  next h => rw [List.getD_eq_default _ _ (by rw [input_length]; omega)]; rfl

theorem sextetOfWindow_input (s : State) (j q : Nat) :
    sextetOfWindow s.input j q = BitVec.ofNat 6 (windowValue s j / 2 ^ (18 - 6 * q)) := by
  rw [sextetOfWindow, windowSextet_eq_ofNat, toNat_input_getD, toNat_input_getD, toNat_input_getD, windowValue]

/-- Settles O28: the success commit of the encoder's characters, which stand by position. -/
theorem b64eWritesSextetsAndPadding : Obligations.B64eWritesSextetsAndPadding := by
  refine ⟨rfl, fun s hcap => ⟨fun hfits => ?_, exec_tooLong (by decide)⟩⟩
  obtain ⟨t, hexec, holen, hresult, hstatus, hframe⟩ := successCommit_spec .b64e s _ _ hcap rfl hfits rfl
  rw [bytesToBase64_length, input_length] at holen
  refine ⟨t, hexec, hstatus, holen, fun j hj q hq => ?_, hframe⟩
  have hchar := bytesToBase64_getElem? s.input (j := j) (by rwa [input_length]) hq
  rw [← hresult, result_getElem? (by omega), sextetOfWindow_input, input_length] at hchar
  exact Option.some.inj hchar

end Sys2Proof.Machine
end

section
/-! PROOF. The decoder's input as a sequence of quanta, and the format check of every string that the decoder refuses
(41_base64.md R94, R95, R96). -/

namespace Sys2Proof.Machine

/-- `s` is a string of quanta that `B64D` accepts, and `out` holds their bytes (41_base64.md R94 to R97). Only the last
quantum holds `=`, and under `STRICT_TAIL_BITS` its discarded bits are zero. -/
inductive Quanta (strict : Bool) : (s out : List Byte) → Prop
  | nil : Quanta strict [] []
  | twoPads {v0 v1 : Sextet} (tail : strict = true → v1.toNat % 16 = 0) :
      Quanta strict [std v0, std v1, padChar, padChar] [quantumByte0 v0 v1]
  | onePad {v0 v1 v2 : Sextet} (tail : strict = true → v2.toNat % 4 = 0) :
      Quanta strict [std v0, std v1, std v2, padChar] [quantumByte0 v0 v1, quantumByte1 v1 v2]
  | full {v0 v1 v2 v3 : Sextet} {s out : List Byte} (rest : Quanta strict s out) :
      Quanta strict (std v0 :: std v1 :: std v2 :: std v3 :: s)
        (quantumByte0 v0 v1 :: quantumByte1 v1 v2 :: quantumByte2 v2 v3 :: out)

/-! ### The format, one quantum at a time -/

@[simp] theorem padOnlyAtEnd_nil : padOnlyAtEnd [] = true := rfl

/-- `=` at the head is allowed only alone or before one last `=` (41_base64.md R95 (c)). -/
theorem padOnlyAtEnd_cons (c : Byte) (s : List Byte) :
    padOnlyAtEnd (c :: s) =
      ((c != padChar || 0 == s.length || 1 == s.length && s.getD 0 0 == padChar) && padOnlyAtEnd s) := by
  simp [padOnlyAtEnd, List.range_succ_eq_map, Function.comp_def, Nat.add_assoc]

/-- Before further quanta, a quantum is four characters of the alphabet (41_base64.md R95). -/
theorem acceptedBase64_inner (strict : Bool) (c0 c1 c2 c3 : Byte) {rest : List Byte} (h : 4 ≤ rest.length) :
    acceptedBase64 strict (c0 :: c1 :: c2 :: c3 :: rest) =
      (((stdInv c0).isSome && (stdInv c1).isSome && (stdInv c2).isSome && (stdInv c3).isSome) &&
        acceptedBase64 strict rest) := by
  obtain ⟨m, hm⟩ := Nat.exists_eq_add_of_le' h
  have hbits : discardedBitsZero (c0 :: c1 :: c2 :: c3 :: rest) = discardedBitsZero rest := by
    simp [discardedBitsZero, hm]
  have hne : ∀ c, (stdInv c).isSome = true → c ≠ padChar := by
    rintro _ h rfl
    simp at h
  rw [Bool.eq_iff_iff]
  simp only [acceptedBase64, isBase64, padOnlyAtEnd_cons, hbits, List.length_cons, hm]
  grind

/-- The last quantum is `xx==`, `xxx=` or `xxxx` (41_base64.md R95, R96). -/
theorem acceptedBase64_last (strict : Bool) (c0 c1 c2 c3 : Byte) :
    acceptedBase64 strict [c0, c1, c2, c3] =
      ((stdInv c0).isSome && (stdInv c1).isSome &&
        if c2 = padChar then c3 == padChar && decide (strict = true → (sextetOf c1).toNat % 16 = 0)
        else (stdInv c2).isSome &&
          if c3 = padChar then decide (strict = true → (sextetOf c2).toNat % 4 = 0) else (stdInv c3).isSome) := by
  rw [Bool.eq_iff_iff]
  by_cases h0 : c0 = padChar
  · simp [acceptedBase64, isBase64, padOnlyAtEnd_cons, h0]
  by_cases h1 : c1 = padChar
  · simp [acceptedBase64, isBase64, padOnlyAtEnd_cons, h1]
  by_cases h2 : c2 = padChar <;> by_cases h3 : c3 = padChar <;>
    simp [acceptedBase64, isBase64, padOnlyAtEnd_cons, discardedBitsZero, h0, h1, h2, h3, imp_iff_not_or,
      and_assoc, and_left_comm, and_comm]

@[simp] theorem sextetOf_std (v : Sextet) : sextetOf (std v) = v := by rw [sextetOf, stdInv_std, Option.getD_some]

@[simp] theorem sextetOf_padChar : sextetOf padChar = 0 := by rw [sextetOf, stdInv_padChar, Option.getD_none]

/-- A character stands for a sextet or is outside the alphabet (10_state.md R27). -/
theorem stdInv_cases (c : Byte) : stdInv c = none ∨ ∃ v, c = std v := by
  cases hc : stdInv c with
  | none => exact .inl rfl
  | some v => exact .inr ⟨v, (std_of_stdInv hc).symm⟩

theorem extractLsb'_zero_eq_zero_iff {k : Nat} (v : Sextet) : v.extractLsb' 0 k = 0#k ↔ v.toNat % 2 ^ k = 0 := by
  rw [← BitVec.toNat_inj, BitVec.extractLsb'_toNat, Nat.shiftRight_zero]
  rfl

/-! ### The loop of the decoder, one quantum at a time -/

theorem decodeQuantum_full (strict last : Bool) (v0 v1 v2 v3 : Sextet) :
    decodeQuantum strict last (std v0) (std v1) (std v2) (std v3) =
      .out [quantumByte0 v0 v1, quantumByte1 v1 v2, quantumByte2 v2 v3] := by
  simp [decodeQuantum, stdInv_std, std_ne_padChar]

theorem decodeQuantum_onePad (strict : Bool) (v0 v1 v2 : Sextet) :
    decodeQuantum strict true (std v0) (std v1) (std v2) padChar =
      if strict = true → v2.toNat % 4 = 0 then .out [quantumByte0 v0 v1, quantumByte1 v1 v2]
      else .raise .invalidEncoding := by
  rw [← ite_not]
  simp [decodeQuantum, stdInv_std, std_ne_padChar, extractLsb'_zero_eq_zero_iff]

theorem decodeQuantum_twoPads (strict : Bool) (v0 v1 : Sextet) :
    decodeQuantum strict true (std v0) (std v1) padChar padChar =
      if strict = true → v1.toNat % 16 = 0 then .out [quantumByte0 v0 v1] else .raise .invalidEncoding := by
  rw [← ite_not]
  simp [decodeQuantum, stdInv_std, extractLsb'_zero_eq_zero_iff]

/-- The last quantum is accepted with its bytes, or the loop refuses it (41_base64.md R94 to R96). -/
theorem lastQuantum_cases (strict : Bool) (c0 c1 c2 c3 : Byte) :
    (acceptedBase64 strict [c0, c1, c2, c3] = true ∧ ∃ out, Quanta strict [c0, c1, c2, c3] out) ∨
    (acceptedBase64 strict [c0, c1, c2, c3] = false ∧
      decodeQuantum strict true c0 c1 c2 c3 = .raise .invalidEncoding) := by
  rw [acceptedBase64_last]
  rcases stdInv_cases c0 with h0 | ⟨v0, rfl⟩
  · exact .inr ⟨by simp [h0], by simp [decodeQuantum, h0]⟩
  rcases stdInv_cases c1 with h1 | ⟨v1, rfl⟩
  · exact .inr ⟨by simp [h1], by simp [decodeQuantum, h1]⟩
  by_cases h2 : c2 = padChar
  · subst h2
    by_cases h3 : c3 = padChar
    · subst h3
      by_cases tail : strict = true → v1.toNat % 16 = 0
      · exact .inl ⟨by simpa [stdInv_std, imp_iff_not_or] using tail, _, .twoPads tail⟩
      · exact .inr ⟨by simp [tail], by rw [decodeQuantum_twoPads, if_neg tail]⟩
    · exact .inr ⟨by simp [h3], by simp [decodeQuantum, stdInv_std, h3]⟩
  rcases stdInv_cases c2 with hnone | ⟨v2, rfl⟩
  · exact .inr ⟨by simp [h2, hnone], by simp [decodeQuantum, stdInv_std, h2, hnone]⟩
  by_cases h3 : c3 = padChar
  · subst h3
    by_cases tail : strict = true → v2.toNat % 4 = 0
    · exact .inl ⟨by simpa [stdInv_std, h2, imp_iff_not_or] using tail, _, .onePad tail⟩
    · exact .inr ⟨by simp [h2, tail], by rw [decodeQuantum_onePad, if_neg tail]⟩
  rcases stdInv_cases c3 with hnone | ⟨v3, rfl⟩
  · exact .inr ⟨by simp [h2, h3, hnone], by simp [decodeQuantum, stdInv_std, h2, h3, hnone]⟩
  · exact .inl ⟨by simp [stdInv_std, h2, h3], _, .full .nil⟩

/-- A quantum before the last one is four characters of the alphabet, or the loop refuses it (41_base64.md R94, R95). -/
theorem innerQuantum_cases (strict : Bool) (c0 c1 c2 c3 : Byte) :
    (∃ v0 v1 v2 v3, c0 = std v0 ∧ c1 = std v1 ∧ c2 = std v2 ∧ c3 = std v3) ∨
    (((stdInv c0).isSome && (stdInv c1).isSome && (stdInv c2).isSome && (stdInv c3).isSome) = false ∧
      decodeQuantum strict false c0 c1 c2 c3 = .raise .invalidEncoding) := by
  rcases stdInv_cases c0 with h0 | ⟨v0, rfl⟩
  · exact .inr ⟨by simp [h0], by simp [decodeQuantum, h0]⟩
  rcases stdInv_cases c1 with h1 | ⟨v1, rfl⟩
  · exact .inr ⟨by simp [h1], by simp [decodeQuantum, h1]⟩
  rcases stdInv_cases c2 with h2 | ⟨v2, rfl⟩
  · exact .inr ⟨by simp [h2], by simp [decodeQuantum, stdInv_std, h2]⟩
  rcases stdInv_cases c3 with h3 | ⟨v3, rfl⟩
  · exact .inr ⟨by simp [h3], by simp [decodeQuantum, stdInv_std, std_ne_padChar, h3]⟩
  · exact .inl ⟨v0, v1, v2, v3, rfl, rfl, rfl, rfl⟩

/-- A string of quanta is accepted with its bytes, and the loop stops with an error on every other one. -/
theorem decodeQuanta_cases (strict : Bool) (s : List Byte) (hlen : s.length % 4 = 0) :
    (acceptedBase64 strict s = true ∧ ∃ out, Quanta strict s out) ∨
    (acceptedBase64 strict s = false ∧ decodeQuanta strict s = .raise .invalidEncoding) := by
  induction s using decodeQuanta.induct with
  | case1 => exact .inl ⟨by cases strict <;> rfl, [], .nil⟩
  | case2 c0 c1 c2 c3 rest ih =>
    cases rest with
    | nil =>
      rcases lastQuantum_cases strict c0 c1 c2 c3 with haccepted | ⟨hrefused, hraise⟩
      · exact .inl haccepted
      · exact .inr ⟨hrefused, by simp [decodeQuanta, hraise, Conversion.append]⟩
    | cons c cs =>
      have hlen' : (c :: cs).length % 4 = 0 := by simp only [List.length_cons] at hlen ⊢; omega
      have hlong : 4 ≤ (c :: cs).length := by simp only [List.length_cons] at hlen' ⊢; omega
      rw [acceptedBase64_inner strict c0 c1 c2 c3 hlong]
      rcases innerQuantum_cases strict c0 c1 c2 c3 with ⟨v0, v1, v2, v3, rfl, rfl, rfl, rfl⟩ | ⟨hrefused, hraise⟩
      · rcases ih hlen' with ⟨hrest, out, hout⟩ | ⟨hrest, hraise⟩
        · exact .inl ⟨by simp [stdInv_std, hrest], _, .full hout⟩
        · exact .inr ⟨by rw [hrest, Bool.and_false],
            by rw [decodeQuanta, hraise, decodeQuantum_full, Conversion.append]⟩
      · exact .inr ⟨by rw [hrefused, Bool.false_and], by simp [decodeQuanta, hraise, Conversion.append]⟩
  | case3 => simp at hlen
  | case4 => simp at hlen
  | case5 => simp at hlen

theorem exists_quanta {strict : Bool} {s : List Byte} (h : acceptedBase64 strict s = true) :
    ∃ out, Quanta strict s out := by
  have hlen : s.length % 4 = 0 := by simp_all [acceptedBase64, isBase64]
  rcases decodeQuanta_cases strict s hlen with ⟨-, hout⟩ | ⟨hfalse, -⟩
  · exact hout
  · simp [h] at hfalse

/-- A length that is no multiple of 4 is refused before the loop (41_base64.md R94, R95 (a)). -/
theorem base64ToBytes_of_not_accepted {strict : Bool} {s : List Byte} (h : acceptedBase64 strict s = false) :
    base64ToBytes strict s = .raise .invalidEncoding := by
  rw [base64ToBytes]
  split
  next => rfl
  next hlen =>
    rcases decodeQuanta_cases strict s (not_not.1 hlen) with ⟨htrue, -⟩ | ⟨-, hraise⟩
    · simp [h] at htrue
    · exact hraise

/-- A string that is decoded is accepted. -/
theorem acceptedBase64_of_base64ToBytes {strict : Bool} {s out : List Byte} (h : base64ToBytes strict s = .out out) :
    acceptedBase64 strict s = true := by
  by_contra hrefused
  rw [base64ToBytes_of_not_accepted (Bool.not_eq_true _ ▸ hrefused)] at h
  cases h

namespace Quanta

variable {strict : Bool} {s out : List Byte}

theorem length_mod (h : Quanta strict s out) : s.length % 4 = 0 := by
  induction h with
  | nil | twoPads | onePad => simp
  | full _ ih => simp only [List.length_cons]; omega

/-- The bytes of the quanta are the loop's result (41_base64.md R94). -/
theorem base64ToBytes_eq (h : Quanta strict s out) : base64ToBytes strict s = .out out := by
  have hquanta : decodeQuanta strict s = .out out := by
    induction h with
    | nil => rfl
    | twoPads tail => rw [decodeQuanta, List.isEmpty_nil, decodeQuantum_twoPads, if_pos tail]; rfl
    | onePad tail => rw [decodeQuanta, List.isEmpty_nil, decodeQuantum_onePad, if_pos tail]; rfl
    | full _ ih => rw [decodeQuanta, decodeQuantum_full, ih]; rfl
  rw [base64ToBytes, if_neg (not_not.2 h.length_mod), hquanta]

/-- Three bytes per quantum, less one for each `=` (41_base64.md R97). -/
theorem length_add_count (h : Quanta strict s out) : out.length + s.count padChar = 3 * (s.length / 4) := by
  induction h with
  | nil => rfl
  | twoPads | onePad => simp [std_ne_padChar]
  | full _ ih => simp [std_ne_padChar]; omega

end Quanta

end Sys2Proof.Machine
end

section
/-! PROOF. What `B64D` writes for each quantum, and the Base64 round trip (41_base64.md R97, R98). -/

namespace Sys2Proof.Machine

namespace Quanta

variable {strict : Bool} {s out : List Byte}

/-- What is accepted when the discarded bits must be zero is accepted in any case (41_base64.md R96). -/
theorem of_strict (h : Quanta true s out) : Quanta strict s out := by
  induction h with
  | nil => exact .nil
  | twoPads tail => exact .twoPads fun _ => tail rfl
  | onePad tail => exact .onePad fun _ => tail rfl
  | full _ ih => exact .full ih

/-- Byte `m` of quantum `j` is that byte of its 24-bit value (41_base64.md R97). -/
theorem getElem? (h : Quanta strict s out) {j m : Nat} (hm : m < 3) (hk : 3 * j + m < out.length) :
    out[3 * j + m]?.map BitVec.toNat =
      some (quantum24 (sextetOf (s.getD (4 * j) 0)) (sextetOf (s.getD (4 * j + 1) 0)) (sextetOf (s.getD (4 * j + 2) 0))
        (sextetOf (s.getD (4 * j + 3) 0)) / 2 ^ (16 - 8 * m) % 256) := by
  induction h generalizing j with
  | nil => cases hk
  | @twoPads v0 v1 _ =>
    obtain ⟨rfl, rfl⟩ : j = 0 ∧ m = 0 := by simp only [List.length_cons, List.length_nil] at hk; omega
    simpa using (toNat_quantumBytes v0 v1 0 0).1
  | @onePad v0 v1 v2 _ =>
    obtain ⟨byte0, byte1, -⟩ := toNat_quantumBytes v0 v1 v2 0
    obtain rfl : j = 0 := by simp only [List.length_cons, List.length_nil] at hk; omega
    obtain rfl | rfl : m = 0 ∨ m = 1 := by simp only [List.length_cons, List.length_nil] at hk; omega
    · simpa using byte0
    · simpa using byte1
  | @full v0 v1 v2 v3 s out _ ih =>
    cases j with
    | zero =>
      obtain ⟨byte0, byte1, byte2⟩ := toNat_quantumBytes v0 v1 v2 v3
      interval_cases m
      · simpa using byte0
      · simpa using byte1
      · simpa using byte2
    | succ j =>
      have hindex : 3 * (j + 1) + m = 3 * j + m + 3 := by omega
      rw [hindex] at hk ⊢
      exact ih (Nat.lt_of_add_lt_add_right hk)

/-- An accepted string whose discarded bits are zero is written back from its bytes (41_base64.md R98). -/
theorem bytesToBase64_eq (h : Quanta true s out) : bytesToBase64 out = s := by
  induction h with
  | nil => rfl
  | @twoPads v0 v1 tail =>
    have hbyte1 : quantumByte1 v1 0 = 0 := by
      have hbits : v1.toNat % 2 ^ 4 = 0 := tail rfl
      rw [← BitVec.toNat_inj, toNat_quantumByte1, hbits]
      rfl
    have hbyte2 : quantumByte2 0 0 = 0 := rfl
    obtain ⟨h0, h1, -⟩ := windowSextet_quantumBytes v0 v1 0 0
    rw [hbyte1, hbyte2] at h0 h1
    rw [bytesToBase64_one, h0, h1]
  | @onePad v0 v1 v2 tail =>
    have hbyte2 : quantumByte2 v2 0 = 0 := by
      have hbits : v2.toNat % 2 ^ 2 = 0 := tail rfl
      rw [← BitVec.toNat_inj, toNat_quantumByte2, hbits]
      rfl
    obtain ⟨h0, h1, h2, -⟩ := windowSextet_quantumBytes v0 v1 v2 0
    rw [hbyte2] at h0 h1 h2
    rw [bytesToBase64_two, h0, h1, h2]
  | @full v0 v1 v2 v3 s out _ ih =>
    obtain ⟨h0, h1, h2, h3⟩ := windowSextet_quantumBytes v0 v1 v2 v3
    rw [bytesToBase64_cons_cons_cons, h0, h1, h2, h3, ih]

end Quanta

/-- What the encoder writes is accepted, with the bytes it was written from (41_base64.md R98). -/
theorem quanta_bytesToBase64 (strict : Bool) (bs : List Byte) : Quanta strict (bytesToBase64 bs) bs := by
  have hzero : (0 : Byte).toNat = 0 := rfl
  induction bs using bytesToBase64.induct with
  | case1 => exact .nil
  | case2 a =>
    have tail : (windowSextet a 0 0 1).toNat % 16 = 0 := by rw [toNat_windowSextet, hzero]; omega
    simpa [bytesToBase64_one] using Quanta.twoPads (strict := strict) (v0 := windowSextet a 0 0 0) fun _ => tail
  | case3 a b =>
    have tail : (windowSextet a b 0 2).toNat % 4 = 0 := by rw [toNat_windowSextet, hzero]; omega
    simpa [bytesToBase64_two] using
      Quanta.onePad (strict := strict) (v0 := windowSextet a b 0 0) (v1 := windowSextet a b 0 1) fun _ => tail
  | case4 a b c rest ih =>
    simpa [bytesToBase64_cons_cons_cons] using
      Quanta.full (v0 := windowSextet a b c 0) (v1 := windowSextet a b c 1) (v2 := windowSextet a b c 2)
        (v3 := windowSextet a b c 3) ih

/-- Settles O29: an accepted string is a sequence of quanta, whose bytes are committed. -/
theorem b64dReadsQuanta : Obligations.B64dReadsQuanta := by
  refine ⟨rfl, fun s hcap => ⟨fun hfits haccepted => ?_, fun hfits hrefused => ?_, exec_tooLong (by decide)⟩⟩
  · obtain ⟨out, hout⟩ := exists_quanta haccepted
    obtain ⟨t, hexec, holen, hresult, hstatus, hframe⟩ :=
      successCommit_spec .b64d s _ _ hcap rfl hfits hout.base64ToBytes_eq
    have hlen := hout.length_add_count
    rw [input_length] at hlen
    refine ⟨t, hexec, hstatus, by omega, fun j m hm hk => ?_, hframe⟩
    have hbyte := hout.getElem? hm (holen ▸ hk)
    rw [← hresult, result_getElem? hk, input_getD, input_getD, input_getD, input_getD] at hbyte
    · exact Option.some.inj hbyte
    all_goals omega
  · exact exec_raise rfl hfits (base64ToBytes_of_not_accepted hrefused)

/-- Settles O39: both directions on sequences by the quanta, and the block by the chain over `XFER`. -/
theorem base64RoundTrip : Obligations.Base64RoundTrip := by
  refine ⟨fun strict b => (quanta_bytesToBase64 strict b).base64ToBytes_eq, fun strict t b hb htail => ?_,
    fun s hcap hfits => ?_⟩
  · have hcanonical : acceptedBase64 true t = true := by
      rcases htail with rfl | hcanonical
      · exact acceptedBase64_of_base64ToBytes hb
      · exact hcanonical
    obtain ⟨out, hout⟩ := exists_quanta hcanonical
    cases hb.symm.trans hout.of_strict.base64ToBytes_eq
    exact hout.bytesToBase64_eq
  · have hmidFits : (bytesToBase64 s.input).length ≤ s.inCap := by rwa [bytesToBase64_length, input_length]
    exact runCommand_xfer_runCommand hcap (i := .b64e) (j := .b64d) rfl rfl (by omega) rfl hmidFits
      (quanta_bytesToBase64 _ s.input).base64ToBytes_eq

end Sys2Proof.Machine
end

section
/-! PROOF. The fused commands: a pseudocode on the result of another, on sequences and as two commands joined by `XFER`
(41_base64.md R100, R102, R103). -/

namespace Sys2Proof.Machine

theorem andThen_of_out {c : Conversion} {bytes : List Byte} (h : c = .out bytes) (f : List Byte → Conversion) :
    c.andThen f = f bytes := by rw [h, Conversion.andThen]

theorem andThen_of_raise {c : Conversion} {e : ErrorClass} (h : c = .raise e) (f : List Byte → Conversion) :
    c.andThen f = .raise e := by rw [h, Conversion.andThen]

/-- Settles O30: the bytes of a hex string's digit pairs, encoded. -/
theorem h2b64Composes : Obligations.H2b64Composes := by
  refine ⟨rfl, fun s hcap => ⟨fun hfits hhex => ?_, fun hfits hhex => ?_, exec_tooLong (by decide)⟩⟩
  · obtain ⟨bytes, hbytes⟩ := exists_digitPairs hhex
    obtain ⟨t, hexec, holen, hresult, hstatus, hframe⟩ :=
      successCommit_spec .h2b64 s _ _ hcap rfl hfits (andThen_of_out hbytes.hexToBytes_eq _)
    have hlen : s.ilen.toNat = 2 * bytes.length := input_length s ▸ hbytes.length
    rw [bytesToBase64_length] at holen
    exact ⟨t, bytes, hexec, hstatus, hbytes.hexToBytes_eq, hresult, by omega, hframe⟩
  · exact exec_raise rfl hfits (andThen_of_raise (hexToBytes_of_not_isHexString hhex) _)

/-- Settles O31: the bytes of an accepted string's quanta, written as digits. -/
theorem b642hComposes : Obligations.B642hComposes := by
  refine ⟨rfl, fun s hcap => ⟨fun hfits haccepted => ?_, fun hfits hrefused => ?_, exec_tooLong (by decide)⟩⟩
  · obtain ⟨bytes, hbytes⟩ := exists_quanta haccepted
    obtain ⟨t, hexec, holen, hresult, hstatus, hframe⟩ :=
      successCommit_spec .b642h s _ _ hcap rfl hfits (andThen_of_out hbytes.base64ToBytes_eq _)
    have hlen := hbytes.length_add_count
    rw [input_length] at hlen
    rw [bytesToHex_length] at holen
    exact ⟨t, bytes, hexec, hstatus, hbytes.base64ToBytes_eq, hresult, by omega, hframe⟩
  · exact exec_raise rfl hfits (andThen_of_raise (base64ToBytes_of_not_accepted hrefused) _)

/-- What the host sees of a completion is its report and its result (10_state.md R29). -/
theorem sameDelivery_of_result {t w : State} (hstatus : t.status = w.status) (hresult : t.result = w.result) :
    SameDelivery t w where
  status := hstatus
  olen := by
    apply BitVec.eq_of_toNat_eq
    rw [← result_length, hresult, result_length]
  obufView k := by
    have hview : ∀ v : State, v.obufView k = v.result.getD k 0 := fun v => by
      rw [State.obufView]
      split
      next h => rw [List.getD_eq_getElem?_getD, result_getElem? h, Option.getD_some]
      next h => rw [List.getD_eq_default _ _ (by rw [result_length]; omega)]
    rw [hview, hview, hresult]

/-- A command and the first half of its chain that fail with the same class: the chain stops there (41_base64.md R103). -/
theorem fusedEqualsChain_of_failed {fused first second : Instr} {s : State} {e : ErrorClass}
    (hfused : runCommand fused s = .next (failureCommit e (acceptCommand (encode fused) s)))
    (hfirst : runCommand first s = .next (failureCommit e (acceptCommand (encode first) s))) :
    fusedEqualsChain fused first second s := by
  obtain ⟨hstatus, holen, hview⟩ :=
    sameDelivery_failureCommit e (acceptCommand (encode fused) s) (acceptCommand (encode first) s)
  exact ⟨_, _, hfused, hfirst, fun _ => ⟨hstatus, holen, hview⟩, fun herr => by cases herr⟩

/-- A command that runs one pseudocode on the result of another delivers what the two commands joined by `XFER` deliver,
when the result between them is no longer than the input (41_base64.md R103). -/
theorem fusedEqualsChain_of_pseudocode {fused first second : Instr} {s : State} {f : List Byte → Conversion}
    {g : List Byte → List Byte} (hcap : s.capInRange)
    (hfused : pseudocode s.strictTailBits fused = some fun t => (f t).andThen fun mid => .out (g mid))
    (hfirst : pseudocode s.strictTailBits first = some f)
    (hsecond : pseudocode s.strictTailBits second = some fun mid => .out (g mid))
    (hshort : ∀ mid, f s.input = .out mid → mid.length ≤ s.ilen.toNat) : fusedEqualsChain fused first second s := by
  rcases convert_cases f s with ⟨hlong, -⟩ | ⟨hfits, mid, hmid, -⟩ | ⟨hfits, e, hraise, -⟩
  · exact fusedEqualsChain_of_failed (exec_tooLong (by rintro rfl; cases hfused) hlong)
      (exec_tooLong (by rintro rfl; cases hfirst) hlong)
  · obtain ⟨t, ht, -, htResult, htStatus, -⟩ :=
      successCommit_spec fused (acceptCommand (encode fused) s) _ (g mid) hcap hfused hfits (andThen_of_out hmid _)
    obtain ⟨u, v, w, hu, hv, hw, hwStatus, hwResult⟩ :=
      runCommand_xfer_runCommand hcap hfirst hsecond hfits hmid ((hshort mid hmid).trans hfits) rfl
    obtain ⟨hstatus, holen, hview⟩ :=
      sameDelivery_of_result (htStatus.trans hwStatus.symm) (htResult.trans hwResult.symm)
    refine ⟨t, u, ht, hu, fun herr => ?_, fun _ => ⟨v, w, hv, hw, hstatus, holen, hview⟩⟩
    cases (runCommand_out hfirst hfits hmid).symm.trans hu
    cases herr
  · exact fusedEqualsChain_of_failed (exec_raise hfused hfits (andThen_of_raise hraise _))
      (exec_raise hfirst hfits hraise)

/-- Settles O40: each fused command runs the second pseudocode on the result of the first, which is no longer than the
input. -/
theorem fusedCommandsEqualChains : Obligations.FusedCommandsEqualChains := by
  refine fun s hcap => ⟨fusedEqualsChain_of_pseudocode hcap rfl rfl rfl fun mid hmid => ?_,
    fusedEqualsChain_of_pseudocode hcap rfl rfl rfl fun mid hmid => ?_⟩
  · have hlen := hexToBytes_length hmid
    rw [input_length] at hlen
    omega
  · have hlen := base64ToBytes_length hmid
    rw [input_length] at hlen
    omega

end Sys2Proof.Machine
end

section
/-! PROOF. The alphabets of the variants and the substitutions between them (10_state.md R25, 42_variants.md R110, R113,
R115, R118). -/

namespace Sys2Proof.Machine

/-- `B2URL` on a character that stays: `+` as `-`, `/` as `_`, every other one as it is (42_variants.md R110). -/
def toUrlChar (c : Byte) : Byte := if c = 0x2B then 0x2D else if c = 0x2F then 0x5F else c

/-- The character of the URL alphabet at a position of `STD` (30_encoding.md R67). -/
def url (v : Sextet) : Byte := toUrlChar (std v)

theorem urlChar_eq (c : Byte) : urlChar c = if c = padChar then none else some (toUrlChar c) := by
  by_cases hpad : c = padChar
  · subst hpad; rfl
  · simp only [urlChar, toUrlChar, if_neg hpad]
    split_ifs <;> rfl

@[simp] theorem toExtChar_std (v : Sextet) : toExtChar (std v) = some (ext v) := by rw [toExtChar, stdInv_std]; rfl

@[simp] theorem toStdChar_ext (v : Sextet) : toStdChar (ext v) = some (std v) := by rw [toStdChar, extInv_ext]; rfl

@[simp] theorem unUrlChar_url : ∀ v : Sextet, unUrlChar (url v) = some (std v) := by decide

/-- `URL2B` substitutes `+` for `-` and `/` for `_` (42_variants.md R113). -/
theorem std_eq_of_url : ∀ v : Sextet,
    std v = if url v = 0x2D then 0x2B else if url v = 0x5F then 0x2F else url v := by decide

/-- The characters with an image under each substitution (42_variants.md R114, R117, R120). -/
@[simp] theorem isSome_unUrlChar (c : Byte) : (unUrlChar c).isSome = isUrlChar c := by
  unfold unUrlChar
  split_ifs with hminus hlow halnum
  · subst hminus; rfl
  · subst hlow; rfl
  · exact (Bool.or_eq_true_iff.2 (.inl (Bool.or_eq_true_iff.2 (.inl halnum)))).symm
  · have hother : alphanumeric c = false := Bool.not_eq_true _ ▸ halnum
    simp_all [isUrlChar, alphanumeric]

@[simp] theorem isSome_toExtChar (c : Byte) : (toExtChar c).isSome = (stdInv c).isSome := Option.isSome_map

@[simp] theorem isSome_toStdChar (c : Byte) : (toStdChar c).isSome = (extInv c).isSome := Option.isSome_map

theorem exists_url_of_isUrlChar {c : Byte} (h : isUrlChar c = true) : ∃ v, c = url v := by
  have hall : ∀ c : Byte, isUrlChar c = true → c = url (((unUrlChar c).bind stdInv).getD 0) := by decide
  exact ⟨_, hall c h⟩

theorem stdTable_eq : stdTable = List.ofFn fun i : Fin 64 => std (.ofFin i) := by decide

theorem extTable_eq : extTable = List.ofFn fun i : Fin 64 => ext (.ofFin i) := by decide

/-- A table that lists the codes of all sextets holds exactly these. -/
theorem mem_ofFn_iff {code : Sextet → Byte} {c : Byte} :
    c ∈ List.ofFn (fun i : Fin 64 => code (.ofFin i)) ↔ ∃ v, code v = c :=
  List.mem_ofFn.trans ⟨fun ⟨i, hi⟩ => ⟨.ofFin i, hi⟩, fun ⟨v, hv⟩ => ⟨v.toFin, hv⟩⟩

/-- A character goes to a character of `EXT` exactly from the same position of `STD` (42_variants.md R115). -/
theorem toExtChar_eq_some_iff {c d : Byte} : toExtChar c = some d ↔ ∃ v, std v = c ∧ ext v = d := by
  simp only [toExtChar, Option.map_eq_some_iff, stdInv_eq_some_iff]

/-- Settles O44: both alphabets hold one character for each sextet. -/
theorem substitutionIsABijection : Obligations.SubstitutionIsABijection := by
  rw [Obligations.SubstitutionIsABijection, stdTable_eq, extTable_eq]
  refine ⟨fun c hc => ?_, fun d hd => ?_, fun b c d hb hc => ?_, ext_lt_ext⟩
  · obtain ⟨v, rfl⟩ := mem_ofFn_iff.1 hc
    exact ⟨ext v, mem_ofFn_iff.2 ⟨v, rfl⟩, toExtChar_std v⟩
  · obtain ⟨v, rfl⟩ := mem_ofFn_iff.1 hd
    exact ⟨std v, mem_ofFn_iff.2 ⟨v, rfl⟩, toExtChar_std v⟩
  · obtain ⟨u, rfl, rfl⟩ := toExtChar_eq_some_iff.1 hb
    obtain ⟨v, rfl, hext⟩ := toExtChar_eq_some_iff.1 hc
    rw [ext_injective hext]

end Sys2Proof.Machine
end

section
/-! PROOF. The loops of the variant transforms on a whole string (42_variants.md R110 to R120). -/

namespace Sys2Proof.Machine

/-- A loop that has an image for every character emits the images in order. -/
theorem mapChars_map {α : Type} {f : Byte → Option Byte} {code image : α → Byte} {s : List α}
    (h : ∀ a ∈ s, f (code a) = some (image a)) : mapChars f (s.map code) = some (s.map image) := by
  induction s with
  | nil => rfl
  | cons a s ih =>
    obtain ⟨ha, hs⟩ := List.forall_mem_cons.1 h
    simp [mapChars, ha, ih hs]

/-- A loop ends with a result exactly when every character has an image. -/
theorem isSome_mapChars (f : Byte → Option Byte) (s : List Byte) :
    (mapChars f s).isSome = s.all fun c => (f c).isSome := by
  induction s with
  | nil => rfl
  | cons c s ih =>
    rw [List.all_cons, ← ih, mapChars]
    cases f c <;> cases mapChars f s <;> rfl

theorem emitChars_of_isSome_eq_false {o : Option (List Byte)} (h : o.isSome = false) :
    emitChars o = .raise .invalidEncoding := by
  rw [Option.isSome_eq_false_iff, Option.isNone_iff_eq_none] at h
  rw [h, emitChars]

/-- The `=` that make `n` characters a multiple of 4 (42_variants.md R112). -/
def padding (n : Nat) : List Byte := List.replicate ((4 - n % 4) % 4) padChar

/-- The Base64 string of a sequence of sextets, padded (30_encoding.md R66). -/
def padded (vs : List Sextet) : List Byte := vs.map std ++ padding vs.length

/-- A full quantum needs no padding. -/
theorem padded_cons_quantum (v0 v1 v2 v3 : Sextet) (vs : List Sextet) :
    padded (v0 :: v1 :: v2 :: v3 :: vs) = std v0 :: std v1 :: std v2 :: std v3 :: padded vs := by
  simp only [padded, padding, List.map_cons, List.cons_append, List.length_cons, Nat.add_assoc, Nat.reduceAdd,
    Nat.add_mod_right]

theorem repad_eq (n : Nat) : repad n = if n % 4 = 1 then .raise .invalidEncoding else .out (padding n) := by
  have hlt : n % 4 < 4 := Nat.mod_lt n (by decide)
  unfold repad padding
  interval_cases n % 4 <;> rfl

@[simp] theorem stripPad_padded (vs : List Sextet) : stripPad (padded vs) = vs.map std := by
  have hchars : stripPad (vs.map std) = vs.map std := List.filter_eq_self.2 (by simp [std_ne_padChar])
  have hpads : stripPad (padding vs.length) = [] := List.filter_replicate_of_neg (by simp)
  rw [padded, stripPad, List.filter_append]
  exact (congrArg₂ _ hchars hpads).trans (List.append_nil _)

theorem length_stripPad (s : List Byte) : (stripPad s).length = s.length - s.count padChar := by
  rw [stripPad, ← List.countP_eq_length_filter, List.length_eq_countP_add_countP (· == padChar), List.count]
  simp

/-- `B2URL` is the substitution on what the stripping leaves (42_variants.md R110). -/
theorem base64ToBase64Url_eq (s : List Byte) : base64ToBase64Url s = (stripPad s).map toUrlChar := by
  rw [base64ToBase64Url, stripPad, ← List.filterMap_eq_map, List.filterMap_filter]
  congr 1
  funext c
  by_cases hpad : c = padChar <;> simp [urlChar_eq, hpad]

/-- The format `B2EXT` accepts: each character that the stripping leaves has an image (42_variants.md R116, R117). -/
theorem isStdOrPad_eq (s : List Byte) : isStdOrPad s = (stripPad s).all fun c => (toExtChar c).isSome := by
  rw [isStdOrPad, stripPad, List.all_filter]
  congr 1
  funext c
  by_cases hpad : c = padChar <;> simp [hpad]

/-- The permuted characters, on a string that `B2EXT` accepts (42_variants.md R116). -/
theorem base64ToBase64Ext_of_isStdOrPad {s : List Byte} (h : isStdOrPad s = true) :
    base64ToBase64Ext s = .out ((stripPad s).map fun c => ext (sextetOf c)) := by
  rw [isStdOrPad_eq, List.all_eq_true] at h
  have hchars : ∀ c ∈ stripPad s, toExtChar c = some (ext (sextetOf c)) := fun c hc => by
    obtain ⟨v, hv⟩ := Option.isSome_iff_exists.1 (isSome_toExtChar c ▸ h c hc)
    rw [toExtChar, sextetOf, hv]
    rfl
  have hloop := mapChars_map (code := id) hchars
  rw [List.map_id] at hloop
  rw [base64ToBase64Ext, hloop, emitChars]

/-- Any other string holds a character that the loop refuses (42_variants.md R117). -/
theorem base64ToBase64Ext_of_not_isStdOrPad {s : List Byte} (h : isStdOrPad s = false) :
    base64ToBase64Ext s = .raise .invalidEncoding :=
  emitChars_of_isSome_eq_false (by rw [isSome_mapChars, ← isStdOrPad_eq, h])

/-! ### The two transforms that restore the padding -/

/-- The pseudocode that `URL2B` and `EXT2B` share: the loop over the characters, then `repad` (42_variants.md R113,
R120). -/
def restore (f : Byte → Option Byte) (s : List Byte) : Conversion :=
  (emitChars (mapChars f s)).append (repad s.length)

/-- The inputs it accepts: every character has an image, and the length leaves no remainder of 1. -/
def restorable (f : Byte → Option Byte) (s : List Byte) : Bool :=
  s.all (fun c => (f c).isSome) && s.length % 4 != 1

theorem isBase64Url_eq (s : List Byte) : isBase64Url s = restorable unUrlChar s := by
  simp [isBase64Url, restorable]

theorem isBase64Ext_eq (s : List Byte) : isBase64Ext s = restorable toStdChar s := by
  simp [isBase64Ext, restorable]

/-- `f` takes the alphabet `code` to `STD`, position by position, and has an image for no other character. -/
structure Restores (f : Byte → Option Byte) (code : Sextet → Byte) : Prop where
  image : ∀ v, f (code v) = some (std v)
  domain : ∀ c, (f c).isSome = true → ∃ v, c = code v

theorem restores_url : Restores unUrlChar url where
  image := unUrlChar_url
  domain c h := exists_url_of_isUrlChar (isSome_unUrlChar c ▸ h)

theorem restores_ext : Restores toStdChar ext where
  image := toStdChar_ext
  domain c h := by
    rw [isSome_toStdChar] at h
    obtain ⟨v, hv⟩ := Option.isSome_iff_exists.1 h
    exact ⟨v, (ext_of_extInv hv).symm⟩

section

variable {f : Byte → Option Byte} {code : Sextet → Byte}

/-- A string of the alphabet is restored to the padded Base64 string of the same sextets. -/
theorem restore_map (h : Restores f code) {vs : List Sextet} (hlen : vs.length % 4 ≠ 1) :
    restore f (vs.map code) = .out (padded vs) := by
  rw [restore, mapChars_map fun v _ => h.image v, List.length_map, repad_eq, if_neg hlen]
  rfl

theorem exists_sextets (h : Restores f code) {s : List Byte} (hs : restorable f s = true) :
    ∃ vs : List Sextet, s = vs.map code ∧ vs.length % 4 ≠ 1 := by
  obtain ⟨hchars, hlen⟩ := Bool.and_eq_true_iff.1 hs
  have hrange : s ∈ Set.range (List.map code) := by
    rw [Set.range_list_map]
    intro c hc
    obtain ⟨v, hv⟩ := h.domain c (List.all_eq_true.1 hchars c hc)
    exact ⟨v, hv.symm⟩
  obtain ⟨vs, rfl⟩ := hrange
  exact ⟨vs, rfl, by simpa using hlen⟩

/-- A character outside the alphabet or a remainder of 1: the same error (42_variants.md R113, R114, R120). -/
theorem restore_of_not_restorable {s : List Byte} (h : restorable f s = false) :
    restore f s = .raise .invalidEncoding := by
  cases hloop : mapChars f s with
  | none => rw [restore, hloop, emitChars, Conversion.append]
  | some t =>
    have hchars : (s.all fun c => (f c).isSome) = true := by rw [← isSome_mapChars, hloop]; rfl
    have hlen : s.length % 4 = 1 := by simpa [restorable, hchars] using h
    rw [restore, hloop, repad_eq, if_pos hlen]
    rfl

end

end Sys2Proof.Machine
end

section
/-! PROOF. What the four variant commands deliver, and their round trips (42_variants.md R110 to R121). -/

namespace Sys2Proof.Machine

theorem length_padding (n : Nat) : (padding n).length = (4 - n % 4) % 4 := List.length_replicate

theorem length_padded (vs : List Sextet) : (padded vs).length = vs.length + (4 - vs.length % 4) % 4 := by
  rw [padded, List.length_append, List.length_map, length_padding]

theorem padded_getElem?_char {vs : List Sextet} {k : Nat} (h : k < vs.length) :
    (padded vs)[k]? = some (std vs[k]) := by
  rw [padded, List.getElem?_append_left (by rwa [List.length_map]), List.getElem?_map, List.getElem?_eq_getElem h]
  rfl

theorem padded_getElem?_pad {vs : List Sextet} {k : Nat} (hlow : vs.length ≤ k) (hhigh : k < (padded vs).length) :
    (padded vs)[k]? = some padChar := by
  rw [length_padded] at hhigh
  rw [padded, List.getElem?_append_right (by rwa [List.length_map]), List.length_map, padding,
    List.getElem?_replicate_of_lt (by omega)]

/-- Settles O32: the substitution on what the stripping leaves, for every input. -/
theorem b2urlSubstitutesAndStrips : Obligations.B2urlSubstitutesAndStrips := by
  refine ⟨rfl, fun s hcap => ⟨fun hfits => ?_, exec_tooLong (by decide)⟩⟩
  obtain ⟨t, hexec, holen, hresult, hstatus, hframe⟩ := successCommit_spec .b2url s _ _ hcap rfl hfits rfl
  rw [base64ToBase64Url_eq] at holen hresult
  rw [List.length_map, length_stripPad, input_length] at holen
  exact ⟨t, hexec, hstatus, holen, hresult, hframe⟩

/-- Settles O34: the permutation on what the stripping leaves, or a character that the loop refuses. -/
theorem b2extStripsAndPermutes : Obligations.B2extStripsAndPermutes := by
  refine ⟨rfl, fun s hcap => ⟨fun hfits hvalid => ?_, fun hfits hinvalid => ?_, exec_tooLong (by decide)⟩⟩
  · obtain ⟨t, hexec, holen, hresult, hstatus, hframe⟩ :=
      successCommit_spec .b2ext s _ _ hcap rfl hfits (base64ToBase64Ext_of_isStdOrPad hvalid)
    rw [List.length_map, length_stripPad, input_length] at holen
    exact ⟨t, hexec, hstatus, holen, hresult, hframe⟩
  · exact exec_raise rfl hfits (base64ToBase64Ext_of_not_isStdOrPad hinvalid)

/-- What a command that restores the padding delivers: the character of `STD` at each position, then `=`. -/
theorem exec_restore {i : Instr} {s : State} {f : Byte → Option Byte} {code : Sextet → Byte} (hf : Restores f code)
    (hi : pseudocode s.strictTailBits i = some (restore f)) (hcap : s.capInRange) (hfits : s.ilen.toNat ≤ s.inCap)
    (hvalid : restorable f s.input = true) :
    ∃ t, exec i s = .next t ∧ t.status = .succeeded ∧
      t.olen.toNat = s.ilen.toNat + (4 - s.ilen.toNat % 4) % 4 ∧
      (∀ k < s.ilen.toNat, ∃ v, s.ibufByte k = code v ∧ t.obufByte k = std v) ∧
      (∀ k, s.ilen.toNat ≤ k → k < t.olen.toNat → t.obufByte k = padChar) ∧ ConversionFrame s t := by
  obtain ⟨vs, hinput, hmod⟩ := exists_sextets hf hvalid
  have hlen : s.ilen.toNat = vs.length := by rw [← input_length, hinput, List.length_map]
  obtain ⟨t, hexec, holen, hresult, hstatus, hframe⟩ :=
    successCommit_spec i s _ _ hcap hi hfits ((congrArg _ hinput).trans (restore_map hf hmod))
  refine ⟨t, hexec, hstatus, by rw [holen, length_padded, hlen], fun k hk => ?_, fun k hlow hhigh => ?_, hframe⟩
  · have hread := input_getElem? hk
    have hwrite := padded_getElem?_char (hlen ▸ hk)
    rw [hinput, List.getElem?_map, List.getElem?_eq_getElem (hlen ▸ hk)] at hread
    rw [← hresult, result_getElem? (by rw [holen, length_padded]; omega)] at hwrite
    exact ⟨_, (Option.some.inj hread).symm, Option.some.inj hwrite⟩
  · have hwrite := padded_getElem?_pad (hlen ▸ hlow) (holen ▸ hhigh)
    rw [← hresult, result_getElem? hhigh] at hwrite
    exact Option.some.inj hwrite

/-- Settles O33: the characters of the URL alphabet by position, then the padding restored. -/
theorem url2bSubstitutesAndRepads : Obligations.Url2bSubstitutesAndRepads := by
  refine ⟨rfl, fun s hcap => ⟨fun hfits hvalid => ?_, fun hfits hinvalid => ?_, exec_tooLong (by decide)⟩⟩
  · obtain ⟨t, hexec, hstatus, holen, hchars, hpads, hframe⟩ :=
      exec_restore (i := .url2b) restores_url rfl hcap hfits (isBase64Url_eq _ ▸ hvalid)
    refine ⟨t, hexec, hstatus, holen, fun k hk => ?_, hpads, hframe⟩
    obtain ⟨v, hread, hwrite⟩ := hchars k hk
    rw [hread, hwrite, ← std_eq_of_url]
  · exact exec_raise rfl hfits (restore_of_not_restorable (isBase64Url_eq _ ▸ hinvalid))

/-- Settles O35: the characters of `EXT` by position, then the padding restored. -/
theorem ext2bPermutesAndRepads : Obligations.Ext2bPermutesAndRepads := by
  refine ⟨rfl, fun s hcap => ⟨fun hfits hvalid => ?_, fun hfits hinvalid => ?_, exec_tooLong (by decide)⟩⟩
  · obtain ⟨t, hexec, hstatus, holen, hchars, hpads, hframe⟩ :=
      exec_restore (i := .ext2b) restores_ext rfl hcap hfits (isBase64Ext_eq _ ▸ hvalid)
    refine ⟨t, hexec, hstatus, holen, fun k hk => ?_, hpads, hframe⟩
    obtain ⟨v, hread, hwrite⟩ := hchars k hk
    exact ⟨v, by rw [hread, extInv_ext], hwrite⟩
  · exact exec_raise rfl hfits (restore_of_not_restorable (isBase64Ext_eq _ ▸ hinvalid))

/-! ### Round trips -/

/-- A padded Base64 string, canonical or not, is the padded string of its sextets (30_encoding.md R66). -/
theorem exists_padded {t : List Byte} (h : isBase64 t = true) :
    ∃ vs : List Sextet, t = padded vs ∧ vs.length % 4 ≠ 1 := by
  have haccepted : acceptedBase64 false t = true := by simpa [acceptedBase64] using h
  obtain ⟨out, hquanta⟩ := exists_quanta haccepted
  clear h haccepted
  induction hquanta with
  | nil => exact ⟨[], rfl, by decide⟩
  | @twoPads v0 v1 _ => exact ⟨[v0, v1], rfl, Nat.succ_ne_self 1⟩
  | @onePad v0 v1 v2 _ => exact ⟨[v0, v1, v2], rfl, by simp⟩
  | @full v0 v1 v2 v3 _ _ _ ih =>
    obtain ⟨vs, rfl, hmod⟩ := ih
    exact ⟨v0 :: v1 :: v2 :: v3 :: vs, (padded_cons_quantum v0 v1 v2 v3 vs).symm,
      by simp only [List.length_cons]; omega⟩

theorem base64ToBase64Url_padded (vs : List Sextet) : base64ToBase64Url (padded vs) = vs.map url := by
  rw [base64ToBase64Url_eq, stripPad_padded, List.map_map]
  rfl

theorem base64ToBase64Ext_padded (vs : List Sextet) : base64ToBase64Ext (padded vs) = .out (vs.map ext) := by
  rw [base64ToBase64Ext, stripPad_padded, mapChars_map fun v _ => toExtChar_std v, emitChars]

theorem base64UrlToBase64_map {vs : List Sextet} (h : vs.length % 4 ≠ 1) :
    base64UrlToBase64 (vs.map url) = .out (padded vs) := restore_map restores_url h

theorem base64ExtToBase64_map {vs : List Sextet} (h : vs.length % 4 ≠ 1) :
    base64ExtToBase64 (vs.map ext) = .out (padded vs) := restore_map restores_ext h

/-- Settles O41: each of the three string forms is that of a sequence of sextets, which the transforms keep. -/
theorem variantRoundTrips : Obligations.VariantRoundTrips := by
  refine ⟨fun t ht => ?_, fun t ht => ?_, fun u hu => ?_, fun x hx => ?_⟩
  · obtain ⟨vs, rfl, hmod⟩ := exists_padded ht
    rw [base64ToBase64Url_padded, base64UrlToBase64_map hmod]
  · obtain ⟨vs, rfl, hmod⟩ := exists_padded ht
    exact ⟨_, base64ToBase64Ext_padded vs, base64ExtToBase64_map hmod⟩
  · obtain ⟨vs, rfl, hmod⟩ := exists_sextets restores_url (isBase64Url_eq u ▸ hu)
    exact ⟨_, base64UrlToBase64_map hmod, base64ToBase64Url_padded vs⟩
  · obtain ⟨vs, rfl, hmod⟩ := exists_sextets restores_ext (isBase64Ext_eq x ▸ hx)
    exact ⟨_, base64ExtToBase64_map hmod, base64ToBase64Ext_padded vs⟩

end Sys2Proof.Machine
end

section
/-! PROOF. The order of the sortable alphabet: the encoder as one stream of bits, cut into sextets (42_variants.md
R119). -/

namespace Sys2Proof.Machine

/-- A number of two digits in base `m` is ordered by its high digit, then by its low one. -/
theorem mul_add_lt_mul_add_iff {m p q x y : Nat} (hx : x < m) (hy : y < m) :
    p * m + x < q * m + y ↔ p < q ∨ p = q ∧ x < y := by
  rcases Nat.lt_trichotomy p q with h | rfl | h
  · have := Nat.mul_le_mul_right m h
    rw [Nat.succ_mul] at this
    omega
  · omega
  · have := Nat.mul_le_mul_right m h
    rw [Nat.succ_mul] at this
    omega

theorem toNat_append_eq {m n : Nat} (p : BitVec m) (x : BitVec n) : (p ++ x).toNat = p.toNat * 2 ^ n + x.toNat := by
  rw [BitVec.toNat_append, ← Nat.shiftLeft_add_eq_or_of_lt x.isLt, Nat.shiftLeft_eq]

/-- Two fields side by side are ordered by the high one, then by the low one. -/
theorem append_lt_append_iff {m n : Nat} {p q : BitVec m} {x y : BitVec n} :
    p ++ x < q ++ y ↔ p < q ∨ p = q ∧ x < y := by
  simp only [BitVec.lt_def, ← BitVec.toNat_inj, toNat_append_eq]
  exact mul_add_lt_mul_add_iff x.isLt y.isLt

theorem append_inj_iff {m n : Nat} {p q : BitVec m} {x y : BitVec n} : p ++ x = q ++ y ↔ p = q ∧ x = y := by
  refine ⟨fun h => ⟨?_, ?_⟩, fun ⟨hp, hx⟩ => by rw [hp, hx]⟩
  · rw [← BitVec.extractLsb'_append_eq_left (a := p) (b := x), h, BitVec.extractLsb'_append_eq_left]
  · rw [← BitVec.extractLsb'_append_eq_right (a := p) (b := x), h, BitVec.extractLsb'_append_eq_right]

mutual

/-- The bits of a byte sequence cut into sextets, zero-filled to a multiple of 6 (42_variants.md R119). -/
def sextets : List Byte → List Sextet
  | [] => []
  | a :: bs => a.extractLsb' 2 6 :: sextetsAfter2 (a.extractLsb' 0 2) bs

/-- The same after two bits left over from the byte before. -/
def sextetsAfter2 (p : BitVec 2) : List Byte → List Sextet
  | [] => [p ++ 0#4]
  | b :: bs => (p ++ b.extractLsb' 4 4) :: sextetsAfter4 (b.extractLsb' 0 4) bs

/-- The same after four bits left over, which the next byte fills to two sextets. -/
def sextetsAfter4 (p : BitVec 4) : List Byte → List Sextet
  | [] => [p ++ 0#2]
  | c :: bs => (p ++ c.extractLsb' 6 2) :: c.extractLsb' 0 6 :: sextets bs

end

/-- The sextets of a window are its bits in order, whichever byte they stand in (41_base64.md R90). -/
theorem windowSextet_eq_fields (a b c : Byte) :
    windowSextet a b c 0 = a.extractLsb' 2 6 ∧
      windowSextet a b c 1 = a.extractLsb' 0 2 ++ b.extractLsb' 4 4 ∧
      windowSextet a b c 2 = b.extractLsb' 0 4 ++ c.extractLsb' 6 2 ∧
      windowSextet a b c 3 = c.extractLsb' 0 6 := by
  simp only [← BitVec.toNat_inj, toNat_windowSextet, toNat_append_eq, BitVec.extractLsb'_toNat,
    Nat.shiftRight_eq_div_pow]
  omega

/-- What the encoder writes is the padded string of the sextets. -/
theorem bytesToBase64_eq_padded (bs : List Byte) : bytesToBase64 bs = padded (sextets bs) := by
  induction bs using bytesToBase64.induct with
  | case1 => rfl
  | case2 a =>
    obtain ⟨h0, h1, -⟩ := windowSextet_eq_fields a 0 0
    rw [bytesToBase64_one, h0, h1]
    rfl
  | case3 a b =>
    obtain ⟨h0, h1, h2, -⟩ := windowSextet_eq_fields a b 0
    rw [bytesToBase64_two, h0, h1, h2]
    rfl
  | case4 a b c rest ih =>
    obtain ⟨h0, h1, h2, h3⟩ := windowSextet_eq_fields a b c
    rw [bytesToBase64_cons_cons_cons, h0, h1, h2, h3, ih, ← padded_cons_quantum]
    simp only [sextets, sextetsAfter2, sextetsAfter4]

/-- `E(B)` of 42_variants.md R119. -/
theorem base64ToBase64Ext_bytesToBase64 (bs : List Byte) :
    base64ToBase64Ext (bytesToBase64 bs) = .out ((sextets bs).map ext) := by
  rw [bytesToBase64_eq_padded, base64ToBase64Ext_padded]

/-! ### Order -/

/-- Two sequences that begin with two fields in one word are ordered field by field. -/
theorem append_cons_lt_iff {m n : Nat} {p q : BitVec m} {x y : BitVec n} {l l' : List (BitVec (m + n))} :
    (p ++ x) :: l < (q ++ y) :: l' ↔ p < q ∨ p = q ∧ (x < y ∨ x = y ∧ l < l') := by
  rw [List.cons_lt_cons_iff, append_lt_append_iff, append_inj_iff]
  tauto

/-- A word is its high `n` bits followed by its low `k` bits. -/
theorem exists_append {n k : Nat} (b : BitVec (n + k)) : ∃ (p : BitVec n) (x : BitVec k), b = p ++ x :=
  ⟨b.extractLsb' k n, b.extractLsb' 0 k, by
    rw [BitVec.extractLsb'_append_extractLsb'_eq_extractLsb' (Nat.zero_add k).symm, BitVec.extractLsb'_eq_self]⟩

/-- The order of two sequences, cut in the first words: the high `n` bits, then the low `k` bits, then the rest. -/
theorem cons_lt_iff_fields {w : Nat} (k n : Nat) (h : w = n + k) {b c : BitVec w} {as bs : List (BitVec w)} :
    b :: as < c :: bs ↔
      b.extractLsb' k n < c.extractLsb' k n ∨ b.extractLsb' k n = c.extractLsb' k n ∧
        (b.extractLsb' 0 k < c.extractLsb' 0 k ∨ b.extractLsb' 0 k = c.extractLsb' 0 k ∧ as < bs) := by
  subst h
  obtain ⟨p, x, rfl⟩ := exists_append b
  obtain ⟨q, y, rfl⟩ := exists_append c
  simp only [BitVec.extractLsb'_append_eq_left, BitVec.extractLsb'_append_eq_right]
  exact append_cons_lt_iff

/-- A zero-filled tail is never greater than the bits of a longer sequence. -/
theorem zeroFill_lt_cons_iff {m n : Nat} {p q : BitVec m} {y : BitVec n} {l : List (BitVec (m + n))} (hl : [] < l) :
    [p ++ 0#n] < (q ++ y) :: l ↔ p < q ∨ p = q := by
  have hzero : 0#n < y ∨ 0#n = y := by
    rw [BitVec.lt_def, ← BitVec.toNat_inj, BitVec.toNat_zero]
    omega
  simp [append_cons_lt_iff, hzero, hl]

/-- A sequence is less than a zero-filled tail only by the bits before the filling. -/
theorem cons_lt_zeroFill_iff {m n : Nat} {p q : BitVec m} {x : BitVec n} {l : List (BitVec (m + n))} :
    (p ++ x) :: l < [q ++ 0#n] ↔ p < q := by
  simp [append_cons_lt_iff]

theorem nil_lt_sextetsAfter4 (p : BitVec 4) (bs : List Byte) : [] < sextetsAfter4 p bs := by
  cases bs <;> simp [sextetsAfter4]

/-- One byte after `m` bits left over: its first `n` bits fill a word, and its other `k` bits are left over for `next`.
If `next` is in the order of the bits left over and then of the bytes, so is the whole. -/
theorem lt_iff_of_leftOver {m n k : Nat} (hbyte : 8 = n + k) {cut : BitVec m → List Byte → List (BitVec (m + n))}
    {next : BitVec k → List Byte → List (BitVec (m + n))} (hnil : ∀ p, cut p [] = [p ++ 0#n])
    (hcons : ∀ p b bs, cut p (b :: bs) = (p ++ b.extractLsb' k n) :: next (b.extractLsb' 0 k) bs)
    (hnonempty : ∀ x bs, [] < next x bs) (p q : BitVec m) (as bs : List Byte)
    (hnext : ∀ x y as' bs', as'.length < as.length → (next x as' < next y bs' ↔ x < y ∨ x = y ∧ as' < bs')) :
    cut p as < cut q bs ↔ p < q ∨ p = q ∧ as < bs := by
  cases as with
  | nil =>
    cases bs with
    | nil => rw [hnil, hnil, cons_lt_zeroFill_iff]; simp
    | cons c bs => rw [hnil, hcons, zeroFill_lt_cons_iff (hnonempty _ _)]; simp
  | cons b as =>
    cases bs with
    | nil => rw [hcons, hnil, cons_lt_zeroFill_iff]; simp
    | cons c bs =>
      rw [hcons, hcons, append_cons_lt_iff, hnext _ _ as bs (Nat.lt_succ_self _), cons_lt_iff_fields k n hbyte]

mutual

/-- The sextets are in the order of the bytes, whatever bits are left over (42_variants.md R119). -/
theorem sextets_lt_iff : ∀ as bs : List Byte, sextets as < sextets bs ↔ as < bs
  | [], [] | [], _ :: _ | _ :: _, [] => by simp [sextets]
  | b :: as, c :: bs => by
    rw [sextets, sextets, List.cons_lt_cons_iff, sextetsAfter2_lt_iff, cons_lt_iff_fields 2 6 rfl]
termination_by as => as.length

theorem sextetsAfter2_lt_iff (p q : BitVec 2) (as bs : List Byte) :
    sextetsAfter2 p as < sextetsAfter2 q bs ↔ p < q ∨ p = q ∧ as < bs :=
  lt_iff_of_leftOver (m := 2) (n := 4) (k := 4) rfl (fun p => by rw [sextetsAfter2])
    (fun p b bs => by rw [sextetsAfter2]) nil_lt_sextetsAfter4 p q as bs
    fun x y as' bs' _ => sextetsAfter4_lt_iff x y as' bs'
termination_by as.length

theorem sextetsAfter4_lt_iff (p q : BitVec 4) (as bs : List Byte) :
    sextetsAfter4 p as < sextetsAfter4 q bs ↔ p < q ∨ p = q ∧ as < bs :=
  lt_iff_of_leftOver (m := 4) (n := 2) (k := 6) (next := fun x bs => x :: sextets bs) rfl
    (fun p => by rw [sextetsAfter4]) (fun p b bs => by rw [sextetsAfter4]) (fun _ _ => List.nil_lt_cons _ _) p q as bs
    fun x y as' bs' _ => by rw [List.cons_lt_cons_iff, sextets_lt_iff as' bs']
termination_by as.length

end

/-- `EXT` keeps and reflects the order of sextets, for it rises strictly (10_state.md R25). -/
theorem ext_lt_iff {u v : Sextet} : ext u < ext v ↔ u < v := by
  refine ⟨fun h => ?_, ext_lt_ext u v⟩
  rcases Nat.lt_trichotomy u.toNat v.toNat with huv | huv | hvu
  · exact huv
  · rw [BitVec.eq_of_toNat_eq huv] at h
    exact absurd h (BitVec.lt_irrefl _)
  · exact absurd h (BitVec.lt_asymm (ext_lt_ext v u hvu))

theorem map_ext_lt_iff (us vs : List Sextet) : us.map ext < vs.map ext ↔ us < vs := by
  induction us generalizing vs with
  | nil => cases vs <;> simp
  | cons u us ih =>
    cases vs with
    | nil => simp
    | cons v vs =>
      have heq : ext u = ext v ↔ u = v := ⟨ext_injective, congrArg ext⟩
      rw [List.map_cons, List.map_cons, List.cons_lt_cons_iff, List.cons_lt_cons_iff, ext_lt_iff, heq, ih]

/-- The order of 42_variants.md R119 is the order of lists of words. -/
theorem lexLess_iff_lt {as bs : List Byte} : lexLess as bs ↔ as < bs := Iff.rfl

/-! ### The numeric order -/

theorem bigEndianValue_append (as bs : List Byte) :
    bigEndianValue (as ++ bs) = bigEndianValue as * 256 ^ bs.length + bigEndianValue bs := by
  induction bs using List.reverseRecOn with
  | nil => simp [bigEndianValue]
  | append_singleton bs b ih =>
    have hlast : ∀ cs : List Byte, bigEndianValue (cs ++ [b]) = bigEndianValue cs * 256 + b.toNat := fun cs => by
      simp [bigEndianValue]
    rw [← List.append_assoc, hlast, hlast, ih, List.length_append, List.length_singleton, Nat.pow_succ]
    ring

theorem bigEndianValue_cons (b : Byte) (bs : List Byte) :
    bigEndianValue (b :: bs) = b.toNat * 256 ^ bs.length + bigEndianValue bs := by
  simpa [bigEndianValue] using bigEndianValue_append [b] bs

theorem bigEndianValue_lt (bs : List Byte) : bigEndianValue bs < 256 ^ bs.length := by
  induction bs with
  | nil => decide
  | cons b bs ih =>
    have := Nat.mul_le_mul_right (256 ^ bs.length) (Nat.succ_le_of_lt b.isLt)
    rw [Nat.succ_mul] at this
    rw [bigEndianValue_cons, List.length_cons, Nat.pow_succ]
    omega

/-- Digits of one count are compared from the first one on. -/
theorem lt_iff_bigEndianValue_lt {as bs : List Byte} (h : as.length = bs.length) :
    as < bs ↔ bigEndianValue as < bigEndianValue bs := by
  induction as generalizing bs with
  | nil => rw [List.eq_nil_of_length_eq_zero h.symm]; simp
  | cons a as ih =>
    cases bs with
    | nil => cases h
    | cons b bs =>
      have hlen : as.length = bs.length := Nat.succ.inj h
      rw [List.cons_lt_cons_iff, ih hlen, bigEndianValue_cons, bigEndianValue_cons, hlen,
        mul_add_lt_mul_add_iff (hlen ▸ bigEndianValue_lt as) (bigEndianValue_lt bs), BitVec.lt_def,
        BitVec.toNat_inj]

/-- Settles O42: the sextets of the encoder are in the order of the bytes, and `EXT` in the order of the sextets. The
strings `IF` and `IG` both decode to one byte, for they differ only in bits that the decoder discards. -/
theorem extImagesKeepTheOrder : Obligations.ExtImagesKeepTheOrder := by
  refine ⟨fun as bs => ⟨_, _, base64ToBase64Ext_bytesToBase64 as, base64ToBase64Ext_bytesToBase64 bs, ?_⟩,
    fun as bs h => lt_iff_bigEndianValue_lt h,
    ⟨[0x49, 0x46], [0x49, 0x47], by decide, [0x4D], by decide, by decide⟩⟩
  rw [lexLess_iff_lt, lexLess_iff_lt, map_ext_lt_iff, sextets_lt_iff]

end Sys2Proof.Machine
end

section
/-! PROOF. The buffer transfer, and the host's own copy of a result byte by byte (43_buffer.md R130, R131). -/

namespace Sys2Proof.Machine

/-- Settles O36: the transfer's two answers, and the bytes of `IBUF` below and from `OLEN` on. -/
theorem xferCopiesTheResult : Obligations.XferCopiesTheResult :=
  ⟨rfl, fun s => ⟨fun hfits => ⟨_, execXfer_fits hfits, rfl, rfl, fun _ => ibufByte_xferCommit_inside s,
    fun _ => ibufByte_xferCommit_outside s, rfl, fun _ => rfl, rfl, ⟨rfl, rfl, rfl, rfl, rfl, rfl⟩⟩,
    execXfer_tooLong⟩⟩

/-- The two lines of the host's own copy that carry byte `i` over (43_buffer.md R130). -/
def copyLines (b : Nat → Byte) (i : Nat) : List Access := [rdb i, wrb i (b i)]

theorem handCopy_eq (m : Nat) (b : Nat → Byte) :
    handCopy m b = rdReg .olen :: ((List.range' 0 m).flatMap (copyLines b) ++ [wrReg .ilen (BitVec.ofNat 32 m)]) := by
  rw [handCopy, List.range_eq_range']
  rfl

/-- The bytes of a sequence returned by the port and stored in `IBUF` at index `k` upward, one after the other. -/
def State.carriedOver (k : Nat) (bs : List Byte) (s : State) : State :=
  { s with ibuf := s.ibuf.writeAll k bs, port := (bs.map .byte).reverse ++ s.port }

theorem carriedOver_nil (k : Nat) (s : State) : s.carriedOver k [] = s := rfl

theorem carriedOver_cons (k : Nat) (b : Byte) (bs : List Byte) (s : State) :
    s.carriedOver k (b :: bs) = ((s.answered (.byte b) 0).withIbufByte k b).carriedOver (k + 1) bs := by
  rw [State.carriedOver, List.map_cons, List.reverse_cons, List.append_assoc]
  rfl

/-- `RD OLEN` of an idle block returns the length of the result (10_state.md R34). -/
theorem step_readOlen_of_idle {s : State} {rest : List Turn} (hb : s.status.busy = false)
    (hs : s.schedule = .host (rdReg .olen) :: rest) :
    step s = .next ((s.withSchedule rest).answered (.word s.olen) 0) := by
  rw [step_readReg_of_idle hb .olen hs, regValue_olen_of_idle hb]

/-- `RDB i` of an idle block returns byte `i` of the result (10_state.md R29). -/
theorem step_readResult_of_idle {s : State} {i : Nat} {rest : List Turn} (hcap : s.inCap ≤ 65535)
    (hfits : s.olen.toNat ≤ s.inCap) (hi : i < s.olen.toNat) (hb : s.status.busy = false)
    (hs : s.schedule = .host (rdb i) :: rest) :
    step s = .next ((s.withSchedule rest).answered (.byte (s.obufByte i)) 0) := by
  have hview : s.obufView i = s.obufByte i := if_pos hi
  have hinside : i < s.outCap := by rw [State.outCap]; omega
  rw [step_readByte_of_idle hb hs (byteAt_obufOffset hcap hinside), byteValue_obuf_of_idle hb, hview]

/-- The two copying lines of byte `i` carry it over, and take their two turns alone. -/
theorem runTurnsOf_copyByte (n : Nat) {i : Nat} {s : State} {rest : List Turn} (hcap : s.inCap ≤ 65535)
    (hb : s.status.busy = false) (hfits : s.olen.toNat ≤ s.inCap) (hi : i < s.olen.toNat)
    (hs : s.schedule = (copyLines s.obufByte i).map .host ++ rest) :
    runTurnsOf (n + 2) s =
      runTurnsOf n (((s.withSchedule rest).answered (.byte (s.obufByte i)) 0).withIbufByte i (s.obufByte i)) := by
  have hread := step_readResult_of_idle hcap hfits hi hb hs
  have hwrite := step_writeIbuf_of_idle
    (s := (s.withSchedule (.host (wrb i (s.obufByte i)) :: rest)).answered (.byte (s.obufByte i)) 0)
    hcap (hi.trans_le hfits) hb rfl
  exact (runTurnsOf_succ _ hread).trans (runTurnsOf_succ _ hwrite)

/-- The copying lines of an idle block carry the bytes of the result over, and take their turns alone. -/
theorem runTurnsOf_copyLines (n : Nat) {k m : Nat} {s : State} {rest : List Turn} (hcap : s.inCap ≤ 65535)
    (hb : s.status.busy = false) (hfits : s.olen.toNat ≤ s.inCap) (hm : k + m ≤ s.olen.toNat)
    (hs : s.schedule = ((List.range' k m).flatMap (copyLines s.obufByte)).map .host ++ rest) :
    runTurnsOf (2 * m + n) s =
      runTurnsOf n ((s.withSchedule rest).carriedOver k ((List.range' k m).map s.obufByte)) := by
  induction m generalizing k s with
  | zero =>
    have hs : s.schedule = rest := hs
    rw [Nat.mul_zero, Nat.zero_add, List.range'_zero, List.map_nil, carriedOver_nil, ← hs, withSchedule_self]
  | succ m ih =>
    have hbyte := runTurnsOf_copyByte (2 * m + n) (i := k) hcap hb hfits (by omega) hs
    rw [Nat.mul_succ, Nat.add_right_comm, hbyte, List.range'_succ, List.map_cons, carriedOver_cons]
    have hm' : k + 1 + m ≤ s.olen.toNat := by omega
    exact ih (s := ((s.withSchedule _).answered _ 0).withIbufByte k _) hcap hb hfits hm' rfl

/-- The host's own copy on an idle block: the length read, the result carried over, and the length stored. -/
theorem runTurnsOf_handCopy {s : State} {rest : List Turn} (hcap : s.inCap ≤ 65535) (hb : s.status.busy = false)
    (hfits : s.olen.toNat ≤ s.inCap) (hs : s.schedule = (handCopy s.olen.toNat s.obufByte).map .host ++ rest) :
    runTurnsOf (2 * s.olen.toNat + 2) s =
      .next ((((s.withSchedule rest).answered (.word s.olen) 0).carriedOver 0 s.result).withIlen s.olen) := by
  have hlength : BitVec.ofNat 32 s.olen.toNat = s.olen := by rw [BitVec.ofNat_toNat, BitVec.setWidth_eq]
  rw [handCopy_eq, hlength, List.map_cons, List.map_append, List.cons_append, List.append_assoc] at hs
  rw [State.result, List.range_eq_range']
  calc runTurnsOf (2 * s.olen.toNat + 2) s
      = runTurnsOf (2 * s.olen.toNat + 1) ((s.withSchedule _).answered (.word s.olen) 0) :=
        runTurnsOf_succ _ (step_readOlen_of_idle hb hs)
    _ = runTurnsOf 1
          (((s.withSchedule (.host (wrReg .ilen s.olen) :: rest)).answered (.word s.olen) 0).carriedOver 0 _) :=
        runTurnsOf_copyLines (s := (s.withSchedule _).answered _ 0) 1 hcap hb hfits (Nat.zero_add _).le rfl
    _ = .next _ :=
        runTurnsOf_succ 0
          (step_writeIlen_of_idle (s := ((s.withSchedule _).answered _ 0).carriedOver 0 _) hb rfl)

/-- Settles O37: the copy stores the sequence that the transfer stores, at the same place, and the same length. -/
theorem xferEqualsTheHostsCopy : Obligations.XferEqualsTheHostsCopy := by
  rintro s ⟨-, hcap⟩ hb hfits hs
  refine ⟨_, _, execXfer_fits hfits, runTurnsOf_handCopy hcap hb hfits (hs.trans (List.append_nil _).symm), rfl,
    fun _ => rfl, rfl, fun _ => rfl, rfl, rfl, ?_⟩
  have hbytes : s.result.map PortData.byte = (List.range s.olen.toNat).map fun k => .byte (s.obufByte k) :=
    List.map_map
  rw [← hbytes]
  rfl

end Sys2Proof.Machine
end

section
/-! PROOF. The report: the failure commit, and how long `STATUS` and the result stay (60_exceptions.md R146, R147,
70_reset_and_hazards.md R168). -/

namespace Sys2Proof.Machine

/-- Only the failure commit sets `ERR` (60_exceptions.md R146). -/
theorem Completion.eq_failureCommit {s t : State} (h : Completion s t) (herr : t.status.err = true) :
    ∃ e, t = failureCommit e s := by
  cases h with
  | failed e => exact ⟨e, rfl⟩
  | converted => cases herr
  | transferred => cases herr

/-- Settles O18: the completion was the failure commit, whose fields are read off. -/
theorem failureCommit_spec : Obligations.FailureCommit := by
  intro s t h herr
  obtain ⟨e, rfl⟩ := (completion_of_completeCommand h).eq_failureCommit herr
  exact ⟨⟨e, rfl⟩, rfl, rfl, rfl, fun _ => rfl, obufView_failureCommit e s, fun _ => rfl, rfl, rfl, rfl, rfl, rfl, rfl⟩

/-- Every host access but a `CMD` write leaves the command word, the report and the result (20_memory.md R41). -/
theorem sameDelivery_hostOp {op : HostOp} {s : State} (h : ∀ w, op ≠ .writeReg .cmd w) :
    (hostOp op s).cmd = s.cmd ∧ SameDelivery (hostOp op s) s := by
  rcases hostOp_cases op s with ⟨d, k, hc⟩ | ⟨-, w, hop, -⟩ | ⟨-, w, -, hc⟩ | ⟨-, i, b, -, hc⟩ | hc
  case inr.inl => exact absurd hop (h w)
  all_goals
    rw [hc]
    exact ⟨rfl, rfl, rfl, fun _ => rfl⟩

/-- Settles O15, along the cases of a step. -/
theorem reportAndResultPersist : Obligations.ReportAndResultPersist := by
  intro s t hb h hcmd hreset
  cases stepCase_of_step h with
  | engineIdle => exact ⟨rfl, rfl, rfl, fun _ => rfl⟩
  | completion _ busy _ => simp [hb] at busy
  | @access a rest op turn meaning =>
    have hop : ∀ w, op ≠ .writeReg .cmd w := by
      rintro w rfl
      exact hcmd w rest (resolve_writeCmd meaning ▸ turn)
    obtain ⟨hword, hstatus, holen, hview⟩ := sameDelivery_hostOp (s := s.turnTaken) hop
    exact ⟨hstatus, hword, holen, hview⟩
  | @reset rest turn => exact absurd turn (hreset rest)

end Sys2Proof.Machine
end

section
/-! PROOF. The three error classes (60_exceptions.md R141 to R145): the class a completion reports, as a function of the
state before it, and each class exactly. -/

namespace Sys2Proof.Machine

/-! ### The inputs of R141's table -/

/-- On each input of its row in the table a pseudocode raises `InvalidEncoding` (60_exceptions.md R141). -/
theorem pseudocode_of_invalidInput {strict : Bool} {i : Instr} {f : List Byte → Conversion}
    (hi : pseudocode strict i = some f) {s : List Byte} (h : invalidInput strict i s = true) :
    f s = .raise .invalidEncoding := by
  cases i <;> cases hi <;> simp only [invalidInput, Bool.not_eq_true', Bool.false_eq_true] at h
  case h2b => exact hexToBytes_of_not_isHexString h
  case b64d => exact base64ToBytes_of_not_accepted h
  case h2b64 => exact andThen_of_raise (hexToBytes_of_not_isHexString h) _
  case b642h => exact andThen_of_raise (base64ToBytes_of_not_accepted h) _
  case url2b => exact restore_of_not_restorable (isBase64Url_eq s ▸ h)
  case b2ext => exact base64ToBase64Ext_of_not_isStdOrPad h
  case ext2b => exact restore_of_not_restorable (isBase64Ext_eq s ▸ h)

/-- A string of the alphabet without a remainder of 1 is restored (42_variants.md R113, R120). -/
theorem exists_out_of_restorable {f : Byte → Option Byte} {code : Sextet → Byte} (hf : Restores f code) {s : List Byte}
    (h : restorable f s = true) : ∃ out, restore f s = .out out := by
  obtain ⟨vs, rfl, hlen⟩ := exists_sextets hf h
  exact ⟨_, restore_map hf hlen⟩

/-- On every other input it ends with a result (60_exceptions.md R141). -/
theorem exists_out_of_validInput {strict : Bool} {i : Instr} {f : List Byte → Conversion}
    (hi : pseudocode strict i = some f) {s : List Byte} (h : invalidInput strict i s = false) :
    ∃ out, f s = .out out := by
  cases i <;> cases hi <;> simp only [invalidInput, Bool.not_eq_false'] at h
  case b2h => exact ⟨_, rfl⟩
  case h2b => exact (exists_digitPairs h).imp fun _ hout => hout.hexToBytes_eq
  case b64e => exact ⟨_, rfl⟩
  case b64d => exact (exists_quanta h).imp fun _ hout => hout.base64ToBytes_eq
  case h2b64 =>
    obtain ⟨bytes, hbytes⟩ := exists_digitPairs h
    exact ⟨_, andThen_of_out hbytes.hexToBytes_eq _⟩
  case b642h =>
    obtain ⟨bytes, hbytes⟩ := exists_quanta h
    exact ⟨_, andThen_of_out hbytes.base64ToBytes_eq _⟩
  case b2url => exact ⟨_, rfl⟩
  case url2b => exact exists_out_of_restorable restores_url (isBase64Url_eq s ▸ h)
  case b2ext => exact ⟨_, base64ToBase64Ext_of_isStdOrPad h⟩
  case ext2b => exact exists_out_of_restorable restores_ext (isBase64Ext_eq s ▸ h)

/-! ### The class a command reports -/

/-- The length that must fit `IBUF` (60_exceptions.md R142): `OLEN` for `XFER`, `ILEN` for every other command. -/
def operandLength (i : Instr) (s : State) : Nat := if i = .xfer then s.olen.toNat else s.ilen.toNat

theorem operandLength_of_ne_xfer {i : Instr} (hx : i ≠ .xfer) (s : State) : operandLength i s = s.ilen.toNat :=
  if_neg hx

/-- The class the command `i` reports, if it fails: the length first, then the input (60_exceptions.md R145). -/
def commandError (i : Instr) (s : State) : Option ErrorClass :=
  if s.inCap < operandLength i s then some .invalidArgument
  else if invalidInput s.strictTailBits i s.input then some .invalidEncoding
  else none

theorem commandError_eq_invalidArgument_iff {i : Instr} {s : State} :
    commandError i s = some .invalidArgument ↔ s.inCap < operandLength i s := by
  simp [commandError]

theorem commandError_eq_invalidEncoding_iff {i : Instr} {s : State} :
    commandError i s = some .invalidEncoding ↔
      operandLength i s ≤ s.inCap ∧ invalidInput s.strictTailBits i s.input = true := by
  rcases Nat.lt_or_ge s.inCap (operandLength i s) with hlong | hfits
  · simp [commandError, hlong, hlong.not_ge]
  · simp [commandError, hfits, hfits.not_gt]

theorem commandError_ne_illegalCommand (i : Instr) (s : State) : commandError i s ≠ some .illegalCommand := by
  unfold commandError
  split_ifs <;> simp

/-- A command fails with the class of `commandError`, and succeeds where there is none. -/
theorem exec_eq_failureCommit_or_succeeded (i : Instr) (s : State) :
    (∃ e, commandError i s = some e ∧ exec i s = .next (failureCommit e s)) ∨
    (commandError i s = none ∧ ∃ t, exec i s = .next t ∧ t.status = .succeeded) := by
  rcases Nat.lt_or_ge s.inCap (operandLength i s) with hlong | hfits
  · refine .inl ⟨_, commandError_eq_invalidArgument_iff.2 hlong, ?_⟩
    by_cases hx : i = .xfer
    · subst hx
      exact execXfer_tooLong hlong
    · exact exec_tooLong hx (operandLength_of_ne_xfer hx s ▸ hlong)
  · by_cases hx : i = .xfer
    · subst hx
      exact .inr ⟨if_neg hfits.not_gt, _, execXfer_fits hfits, rfl⟩
    · obtain ⟨f, hf⟩ := pseudocode_isSome (strict := s.strictTailBits) hx
      have hlen : s.ilen.toNat ≤ s.inCap := operandLength_of_ne_xfer hx s ▸ hfits
      cases hinput : invalidInput s.strictTailBits i s.input with
      | true =>
        exact .inl ⟨_, commandError_eq_invalidEncoding_iff.2 ⟨hfits, hinput⟩,
          exec_raise hf hlen (pseudocode_of_invalidInput hf hinput)⟩
      | false =>
        obtain ⟨out, hout⟩ := exists_out_of_validInput hf hinput
        exact .inr ⟨by simp [commandError, hfits.not_gt, hinput], _,
          (exec_eq_convert hf).trans (convert_out hlen hout), rfl⟩

theorem exec_of_commandError {i : Instr} {s : State} {e : ErrorClass} (h : commandError i s = some e) :
    exec i s = .next (failureCommit e s) := by
  rcases exec_eq_failureCommit_or_succeeded i s with ⟨e', he, hexec⟩ | ⟨hnone, -⟩
  · cases h.symm.trans he
    exact hexec
  · simp [h] at hnone

theorem exec_failed_iff {i : Instr} {s t : State} {e : ErrorClass} (h : exec i s = .next t) :
    t.status = .failed e ↔ commandError i s = some e := by
  rcases exec_eq_failureCommit_or_succeeded i s with ⟨e', he, hexec⟩ | ⟨hnone, u, hexec, hu⟩ <;>
    cases hexec.symm.trans h
  · rw [he, Option.some.injEq]
    exact ⟨failed_injective, congrArg Status.failed⟩
  · exact iff_of_false (hu ▸ succeeded_ne_failed e) (by simp [hnone])

/-! ### The class a completion reports -/

/-- The class a completion reports, if it fails: the word before anything else (60_exceptions.md R145). -/
def completionError (s : State) : Option ErrorClass :=
  match decode s.cmd with
  | .command i => commandError i s
  | .illegal _ => some .illegalCommand

theorem completionError_of_command {s : State} {i : Instr} (h : s.cmd = encode i) :
    completionError s = commandError i s := by
  rw [completionError, decode_eq_command_iff.2 h]

theorem completionError_of_illegal {s : State} (h : ∀ i, s.cmd ≠ encode i) :
    completionError s = some .illegalCommand := by
  obtain ⟨e, he⟩ := exists_decode_eq_illegal h
  rw [completionError, he]

/-- What each class says of the word: `IllegalCommand` that it is none of the eleven, any other class that it is one. -/
theorem completionError_eq_some_iff {s : State} {e : ErrorClass} :
    completionError s = some e ↔
      ((∀ i, s.cmd ≠ encode i) ∧ e = .illegalCommand) ∨ ∃ i, s.cmd = encode i ∧ commandError i s = some e := by
  by_cases hword : ∃ i, s.cmd = encode i
  · obtain ⟨i, hi⟩ := hword
    rw [completionError_of_command hi]
    constructor
    · exact fun he => .inr ⟨i, hi, he⟩
    · rintro (⟨hnone, -⟩ | ⟨j, hj, he⟩)
      · exact absurd hi (hnone i)
      · rw [← completionError_of_command hi, completionError_of_command hj, he]
  · have hnone := not_exists.1 hword
    rw [completionError_of_illegal hnone, Option.some.injEq, eq_comm]
    constructor
    · exact fun he => .inl ⟨hnone, he⟩
    · rintro (⟨-, he⟩ | ⟨i, hi, -⟩)
      · exact he
      · exact absurd hi (hnone i)

theorem completeCommand_of_commandError {s : State} {i : Instr} {e : ErrorClass} (hi : s.cmd = encode i)
    (h : commandError i s = some e) : completeCommand s = .next (failureCommit e s) :=
  (completeCommand_of_command (decode_eq_command_iff.2 hi)).trans (exec_of_commandError h)

theorem completeCommand_of_completionError {s : State} {e : ErrorClass} (h : completionError s = some e) :
    completeCommand s = .next (failureCommit e s) := by
  rcases completionError_eq_some_iff.1 h with ⟨hnone, rfl⟩ | ⟨i, hi, he⟩
  · obtain ⟨e, he⟩ := exists_decode_eq_illegal hnone
    exact completeCommand_of_illegal he
  · exact completeCommand_of_commandError hi he

theorem completeCommand_failed_iff {s t : State} {e : ErrorClass} (h : completeCommand s = .next t) :
    t.status = .failed e ↔ completionError s = some e := by
  by_cases hword : ∃ i, s.cmd = encode i
  · obtain ⟨i, hi⟩ := hword
    rw [completionError_of_command hi]
    exact exec_failed_iff ((completeCommand_of_command (decode_eq_command_iff.2 hi)).symm.trans h)
  · have hnone := completionError_of_illegal (not_exists.1 hword)
    cases (completeCommand_of_completionError hnone).symm.trans h
    rw [hnone, Option.some.injEq]
    exact ⟨failed_injective, congrArg Status.failed⟩

/-! ### Each class exactly, and their order -/

/-- Settles O21: no command reports the class. -/
theorem illegalCommandExactly : Obligations.IllegalCommandExactly := by
  intro s t h
  rw [completeCommand_failed_iff h, completionError_eq_some_iff]
  constructor
  · rintro (⟨hnone, -⟩ | ⟨i, -, he⟩)
    · exact hnone
    · exact absurd he (commandError_ne_illegalCommand i s)
  · exact fun hnone => .inl ⟨hnone, rfl⟩

/-- Settles O20: the length that is checked, which is `OLEN` for `XFER` alone. -/
theorem invalidArgumentExactly : Obligations.InvalidArgumentExactly := by
  intro s t h
  simp only [completeCommand_failed_iff h, completionError_eq_some_iff, commandError_eq_invalidArgument_iff]
  constructor
  · rintro (⟨-, he⟩ | ⟨i, hi, hlong⟩)
    · cases he
    · by_cases hx : i = .xfer
      · subst hx
        exact .inr ⟨hi, hlong⟩
      · exact .inl ⟨i, hi, hx, operandLength_of_ne_xfer hx s ▸ hlong⟩
  · rintro (⟨i, hi, hx, hlong⟩ | ⟨hi, hlong⟩)
    · exact .inr ⟨i, hi, (operandLength_of_ne_xfer hx s).symm ▸ hlong⟩
    · exact .inr ⟨.xfer, hi, hlong⟩

/-- `XFER` has no input to be invalid, so the class is a conversion's, on an input that fits (60_exceptions.md R141). -/
theorem commandError_eq_invalidEncoding_iff_conversion {i : Instr} {s : State} :
    commandError i s = some .invalidEncoding ↔
      i ≠ .xfer ∧ s.ilen.toNat ≤ s.inCap ∧ invalidInput s.strictTailBits i s.input = true := by
  rw [commandError_eq_invalidEncoding_iff]
  by_cases hx : i = .xfer
  · subst hx
    simp [invalidInput]
  · simp [operandLength_of_ne_xfer hx, hx]

/-- Settles O22: the class is a conversion's on an invalid input, and an invalid input is a conversion's. -/
theorem invalidEncodingExactly : Obligations.InvalidEncodingExactly := by
  intro i s t hfits h
  rw [exec_failed_iff h, commandError_eq_invalidEncoding_iff_conversion]
  constructor
  · exact fun ⟨_, _, hinvalid⟩ => hinvalid
  · intro hinvalid
    have hx : i ≠ .xfer := by
      rintro rfl
      cases hinvalid
    exact ⟨hx, hfits.resolve_left hx, hinvalid⟩

/-- Settles O19: the four clauses of the order give the class, and its inverse is read off for `InvalidEncoding`. -/
theorem errorPriority : Obligations.ErrorPriority := by
  intro s
  refine ⟨fun hnone => completeCommand_of_completionError (completionError_of_illegal hnone),
    fun i hi hx hlong => completeCommand_of_commandError hi (commandError_eq_invalidArgument_iff.2 ?_),
    fun hi hlong => completeCommand_of_commandError hi (commandError_eq_invalidArgument_iff.2 hlong),
    fun i hi hx hfits hinvalid => completeCommand_of_commandError hi
      (commandError_eq_invalidEncoding_iff_conversion.2 ⟨hx, hfits, hinvalid⟩), fun t h ht => ?_⟩
  · rwa [operandLength_of_ne_xfer hx]
  · rcases completionError_eq_some_iff.1 ((completeCommand_failed_iff h).1 ht) with ⟨-, he⟩ | ⟨i, hi, he⟩
    · cases he
    · obtain ⟨hx, hfits, hinvalid⟩ := commandError_eq_invalidEncoding_iff_conversion.1 he
      exact ⟨hfits, i, hi, hx, hinvalid⟩

end Sys2Proof.Machine
end

section
/-! PROOF. What a command does to its input, and the block after a reset (70_reset_and_hazards.md R160, R161, R169). -/

namespace Sys2Proof.Machine

/-- Which commit a command ended with: the failure commit is open to every command, `XFER`'s own to `XFER` alone. -/
theorem commit_of_exec {i : Instr} {s t : State} (h : exec i s = .next t) :
    (∃ e, t = failureCommit e s) ∨ (i ≠ .xfer ∧ ∃ out, t = successCommit out s) ∨ (i = .xfer ∧ t = xferCommit s) := by
  rcases exec_cases i s with ⟨-, -, hc⟩ | ⟨hx, -, f, out, -, -, -, hc⟩ | ⟨-, -, f, -, -, hc⟩ | ⟨-, -, hc⟩ |
    ⟨hx, -, hc⟩ <;> cases hc.symm.trans h
  · exact .inl ⟨_, rfl⟩
  · exact .inr (.inl ⟨hx, out, rfl⟩)
  · exact .inl ⟨_, rfl⟩
  · exact .inl ⟨_, rfl⟩
  · exact .inr (.inr ⟨hx, rfl⟩)

/-- Settles O24, by the commit: only `XFER`'s stores into `IBUF`, and it stores exactly the result. -/
theorem inputLifetime : Obligations.InputLifetime := by
  intro i s t h
  rcases commit_of_exec h with ⟨e, rfl⟩ | ⟨hx, out, rfl⟩ | ⟨rfl, rfl⟩
  · exact ⟨fun _ => ⟨rfl, ibufByte_failureCommit e s⟩, fun _ herr => nomatch herr⟩
  · exact ⟨fun _ => ⟨rfl, ibufByte_successCommit out s⟩, fun hi => absurd hi hx⟩
  · refine ⟨?_, fun _ _ =>
      ⟨rfl, fun _ => ibufByte_xferCommit_inside s, fun _ => ibufByte_xferCommit_outside s⟩⟩
    rintro (hx | herr)
    · exact absurd rfl hx
    · cases herr

theorem statusWord_idle : statusWord .idle = 0x00000000 := by decide

/-- After a reset every byte of `IBUF` is unspecified anew, whatever had been written (10_state.md R35). -/
@[simp] theorem ibufByte_applyReset (s : State) (i : Nat) :
    (applyReset s).ibufByte i = Config.ibufFill (s.fills + 1) i := rfl

/-- After a reset no byte of `OBUF` can be read (10_state.md R29, R35). -/
@[simp] theorem obufView_applyReset (s : State) (i : Nat) : (applyReset s).obufView i = 0 :=
  obufView_of_olen_eq_zero rfl i

/-- Settles O46: a reset turn is `applyReset` whatever the state is, and its fields are read off. -/
theorem resetFromAnyState : Obligations.ResetFromAnyState := by
  intro s rest hs
  exact ⟨_, step_of_reset hs, rfl, statusWord_idle, rfl, rfl, rfl, rfl, obufView_applyReset _, ibufByte_applyReset _,
    rfl, rfl⟩

end Sys2Proof.Machine
end
